-- ==== Sys2Proof/Word.lean ====
section
/-! DEFINITION. Words, bytes and 4-limb vectors (00_scope.md rules R4, R10, R11), and their plainest arithmetic. -/

namespace Sys2Proof

/-- A `u64`: one limb, one register, one command word (R4, R10). -/
abbrev Word := BitVec 64

/-- One byte of a register as a byte-addressed host sees it (20_memory.md R55). -/
abbrev Byte := BitVec 8

/-- A 256-bit quantity: four limbs, `l0` least significant (R11). -/
structure Limbs where
  l0 : Word
  l1 : Word
  l2 : Word
  l3 : Word
deriving DecidableEq, Repr

namespace Limbs

/-- `val(v) = v[0] + v[1]·2^64 + v[2]·2^128 + v[3]·2^192` (R11). The powers stand first in each product so that the kernel,
where it meets a product with an unknown limb, does not count up to the power. -/
def val (v : Limbs) : Nat :=
  v.l0.toNat + 2 ^ 64 * v.l1.toNat + 2 ^ 128 * v.l2.toNat + 2 ^ 192 * v.l3.toNat

/-- `limbs(n)`: the vector whose value is `n` when `n < 2^256`, and `n mod 2^256` in general (R11). -/
def ofNat (n : Nat) : Limbs :=
  ⟨BitVec.ofNat 64 n, BitVec.ofNat 64 (n / 2 ^ 64), BitVec.ofNat 64 (n / 2 ^ 128), BitVec.ofNat 64 (n / 2 ^ 192)⟩

def zero : Limbs := ⟨0, 0, 0, 0⟩

/-- All four limbs equal: the operand that an outer loop holds fixed. -/
def splat (w : Word) : Limbs := ⟨w, w, w, w⟩

/-- Limb `k`, written `v[k]` in the spec. -/
def get (v : Limbs) (k : Fin 4) : Word :=
  match k with
  | 0 => v.l0
  | 1 => v.l1
  | 2 => v.l2
  | 3 => v.l3

/-- `v` with limb `k` replaced: `v[k] <- w`. -/
def set (v : Limbs) (k : Fin 4) (w : Word) : Limbs :=
  match k with
  | 0 => { v with l0 := w }
  | 1 => { v with l1 := w }
  | 2 => { v with l2 := w }
  | 3 => { v with l3 := w }

end Limbs

end Sys2Proof
end

