-- ==== Sys2Proof/Config.lean ====
section
/-! DEFINITION. What an instance fixes at elaboration (00_scope.md rules R5-R9): the modulus context, the window's
platform address and the latencies. A `Config` is plain data that no step changes; every claim about the machine
quantifies over it. The spec leaves no value to chance, so there is no free value here. -/

namespace Sys2Proof

/-- `LAT(op)` of rule R8, one number for each opcode of 30_encoding.md R81: cycles from acceptance to completion. -/
structure Latency where
  mul  : Nat
  mule : Nat
  mac  : Nat
  macx : Nat
  adc  : Nat
  sbb  : Nat
  geq  : Nat
  red  : Nat
deriving DecidableEq, Repr

/-- The elaboration-time parameters of an instance (R5 and R8). -/
structure Config where
  /-- `P`: the modulus. -/
  p    : Limbs
  /-- `INV`: meant to be `-p^{-1} mod 2^64`; not validated by the block (R5). -/
  inv  : Word
  /-- `R1`: meant to be `2^256 mod P`; read by no command (10_state.md R27). -/
  r1   : Limbs
  /-- `R2`: meant to be `2^512 mod P`. -/
  r2   : Limbs
  /-- `R3`: meant to be `2^768 mod P`. -/
  r3   : Limbs
  /-- `BASE`: platform address of offset 0x000 of the register window (R8). -/
  base : Nat
  /-- `LAT(op)` (R8). -/
  lat  : Latency
deriving DecidableEq, Repr

/-- `EDM_OK` (R7): the carry-saving multiplier is available. The bound is the exact reading of
`P[3] < (2^64 − 1)/2 − 1` (90_conflicts.md C3, C8; log 16). -/
def Config.edmOk (c : Config) : Bool :=
  decide (c.p.l3 ≤ 0x7FFFFFFFFFFFFFFE#64)

/-- The reference configuration of rule R9 (BN254 scalar field; its numbers come from general knowledge, as R9 says).
DESIGN CHOICE: `BASE = 0` (log 4) and `LAT(op) = 1` for every opcode (log 3), which the spec leaves open. -/
def Config.reference : Config where
  p    := ⟨0x43e1f593f0000001#64, 0x2833e84879b97091#64, 0xb85045b68181585d#64, 0x30644e72e131a029#64⟩
  inv  := 0xc2e1f593efffffff#64
  r1   := ⟨0xac96341c4ffffffb#64, 0x36fc76959f60cd29#64, 0x666ea36f7879462e#64, 0x0e0a77c19a07df2f#64⟩
  r2   := ⟨0x1bb8e645ae216da7#64, 0x53fe3ab1e35c59e3#64, 0x8c49833d53bb8085#64, 0x0216d0b17f4e44a5#64⟩
  r3   := ⟨0x5e94d8e1b4bf0040#64, 0x2a489cbe1cfbb6b8#64, 0x893cc664a19fcfed#64, 0x0cf8594b7fcc657c#64⟩
  base := 0
  lat  := ⟨1, 1, 1, 1, 1, 1, 1, 1⟩

end Sys2Proof
end

