-- ==== Sys2Proof/Syntax.lean ====
section
/-! DEFINITION. The commands: one constructor per row of spec/opcode_table.json (30_encoding.md rule R81). A command
word has no operand fields (R80), so no constructor has an argument. -/

namespace Sys2Proof

/-- The eight commands of rule R81. -/
inductive Instr where
  /-- Standard CIOS Montgomery product of X and Y (42_cios_mul.md R161). -/
  | mul
  /-- Carry-saving (EDMSM) Montgomery product of X and Y (43_edmsm_mul.md R191). -/
  | mule
  /-- Multiply-add-carry (40_limb_primitives.md R111). -/
  | mac
  /-- Multiply-add with carry 0 (40_limb_primitives.md R113). -/
  | macx
  /-- Add with carry (40_limb_primitives.md R115). -/
  | adc
  /-- Subtract with borrow (40_limb_primitives.md R117). -/
  | sbb
  /-- 256-bit comparison (41_compare_reduce.md R141). -/
  | geq
  /-- Conditional subtraction of P (41_compare_reduce.md R143). -/
  | red
deriving DecidableEq, Repr

end Sys2Proof
end

