-- ==== Sys2Proof/WellFormed.lean ====
section
/-! DEFINITION. What is well formed: a configuration (00_scope.md rules R6, R8) and a command in an instance
(30_encoding.md rule R82: MULE is legal only where EDM_OK = 1). -/

namespace Sys2Proof

/-- `LAT(op)` (R8): a function of the opcode alone. -/
def Config.latOf (c : Config) : Instr → Nat
  | .mul  => c.lat.mul
  | .mule => c.lat.mule
  | .mac  => c.lat.mac
  | .macx => c.lat.macx
  | .adc  => c.lat.adc
  | .sbb  => c.lat.sbb
  | .geq  => c.lat.geq
  | .red  => c.lat.red

/-- Every `LAT(op)` is at least 1 (R8). -/
def Latency.wf (l : Latency) : Bool :=
  decide (1 ≤ l.mul) && decide (1 ≤ l.mule) && decide (1 ≤ l.mac) && decide (1 ≤ l.macx) &&
  decide (1 ≤ l.adc) && decide (1 ≤ l.sbb) && decide (1 ≤ l.geq) && decide (1 ≤ l.red)

/-- A well-formed instance: `P` odd, `3 <= val(P) < 2^255` (R6), each `LAT(op) >= 1` and `BASE` a multiple of 0x200
(R8). Neither primality nor `INV`, `R1`, `R2`, `R3` is checked (R5, R6). -/
def Config.wf (c : Config) : Bool :=
  c.p.l0.getLsbD 0 && decide (3 ≤ c.p.val) && decide (c.p.val < 2 ^ 255) && c.lat.wf && decide (c.base % 0x200 = 0)

/-- A command that the instance has (R82, 43_edmsm_mul.md R192). -/
def Instr.wf (c : Config) : Instr → Bool
  | .mul  => true
  | .mule => c.edmOk
  | .mac  => true
  | .macx => true
  | .adc  => true
  | .sbb  => true
  | .geq  => true
  | .red  => true

end Sys2Proof
end

