-- ==== Sys2Proof/Decode.lean ====
section
/-! DEFINITION. The command word (30_encoding.md rules R80-R82): its byte order on the bus (20_memory.md R55), the
decoder, total on any bytes, and the encoder. -/

namespace Sys2Proof

/-- Why bytes or a word are no command (R80-R82). -/
inductive DecodeError where
  /-- A command word is exactly one 8-byte write (R80). -/
  | wrongLength
  /-- A bit of `RSV`, bits 63:4, is not 0 (R80, R82). -/
  | reservedBits
  /-- `OP` is 0x0 or 0x9-0xF (R81). -/
  | reservedOpcode
deriving DecidableEq, Repr

/-- Byte `k` of a register or word: bits `[8k+7 : 8k]` (20_memory.md R55). -/
def byteOfWord (v : Word) (k : Nat) : Byte := v.extractLsb' (8 * k) 8

/-- The eight bytes of a word, the one at the lowest address first (20_memory.md R55). -/
def wordBytes (v : Word) : List Byte := (List.range 8).map (byteOfWord v)

/-- The word that bytes make, the first the least significant (20_memory.md R55). -/
def wordOfBytes : List Byte → Word
  | []      => 0
  | b :: bs => b.setWidth 64 ||| (wordOfBytes bs <<< 8)

/-- The opcode map (R81). -/
def decodeOp (op : BitVec 4) : Except DecodeError Instr :=
  match op.toNat with
  | 0x1 => .ok .mul
  | 0x2 => .ok .mule
  | 0x3 => .ok .mac
  | 0x4 => .ok .macx
  | 0x5 => .ok .adc
  | 0x6 => .ok .sbb
  | 0x7 => .ok .geq
  | 0x8 => .ok .red
  | _   => .error .reservedOpcode

/-- Field `OP` of a command word: bits 3:0 (R80). -/
def opField (v : Word) : BitVec 4 := v.extractLsb' 0 4

/-- Field `RSV` of a command word: bits 63:4 (R80). -/
def rsvField (v : Word) : BitVec 60 := v.extractLsb' 4 60

/-- Decode a command word; all 64 bits are read (R80). -/
def decode (v : Word) : Except DecodeError Instr :=
  if rsvField v = 0 then decodeOp (opField v) else .error .reservedBits

/-- Decode the bytes of a bus write: a command is eight bytes (R80), little-endian (20_memory.md R55). -/
def decodeBytes (bs : List Byte) : Except DecodeError Instr :=
  if bs.length = 8 then decode (wordOfBytes bs) else .error .wrongLength

/-- `legal(v)` of rule R82 in the instance `c`. -/
def legal (c : Config) (v : Word) : Bool :=
  match decode v with
  | .ok i    => i.wf c
  | .error _ => false

/-- The opcode of a command (R81). -/
def Instr.opcode : Instr → BitVec 4
  | .mul  => 0x1
  | .mule => 0x2
  | .mac  => 0x3
  | .macx => 0x4
  | .adc  => 0x5
  | .sbb  => 0x6
  | .geq  => 0x7
  | .red  => 0x8

/-- The command word of a command: `OP` in bits 3:0, `RSV = 0` (R80). -/
def encode (i : Instr) : Word := (0 : BitVec 60) ++ i.opcode

/-- The word of `w`'s low `nbits` bits as the 64-bit value of one write; nothing where more than 64 bits are set (log 17). -/
def tableWord (nbits w : Nat) : Option Word :=
  if w % 2 ^ nbits < 2 ^ 64 then some (BitVec.ofNat 64 (w % 2 ^ nbits)) else none

/-- The host's entry to the decoder: the word laid out as the bus carries it, lowest byte first, then decoded. -/
def decodeTableWord (nbits w : Nat) : Option Instr :=
  match tableWord nbits w with
  | none   => none
  | some v =>
    match decodeBytes (wordBytes v) with
    | .ok i    => some i
    | .error _ => none

end Sys2Proof
end

