-- ==== Sys2Proof/Machine/State.lean ====
section
/-! DEFINITION. The machine's state as plain data (10_state.md rules R20-R33), what the outside presents to it, what it
answers, and the reasons a step can stop. The block has no memory (20_memory.md R50) and no program counter (R29). -/

namespace Sys2Proof.Machine

/-- One host access at a platform address (20_memory.md R50, R52). A write's `data` is the 64-bit value of an 8-byte
write; a write of any other width is a bus error whatever it carries (R52). -/
inductive Access where
  | read (addr width : Nat)
  | write (addr width : Nat) (data : Word)
deriving DecidableEq, Repr

/-- What the outside presents at one rising edge of `clk`: the reset line and at most one host access (20_memory.md
R58; 70_reset_and_hazards.md R240, R248). -/
structure Edge where
  rst    : Bool
  access : Option Access
deriving DecidableEq, Repr

/-- What the block answers at one edge. -/
inductive Response where
  /-- No access of this edge was addressed to the block. -/
  | none
  /-- A read was performed and returned this value (20_memory.md R53). -/
  | data (v : Word)
  /-- A write was performed (20_memory.md R54); a dropped or illegal command is a performed write (60_exceptions.md R211). -/
  | ok
  /-- The error response of a bus error; it carries no data (60_exceptions.md R214). -/
  | error
deriving DecidableEq, Repr

/-- Reasons for a fault. Both stand for states that no run from reset reaches (`State.Inv` rules them out; log 9); no
command raises one (60_exceptions.md R210). -/
inductive Fault where
  /-- The engine is busy and `OPL` is no opcode of 30_encoding.md R81, so `F` of R87 is not defined. Raised by
  `engineEdge`. Safe: the model stops where the spec says nothing. -/
  | opcodeUndefined
  /-- The engine is busy and `CNT` is 0 before the edge, so `CNT - 1` of 30_encoding.md R86 is no count. Raised by
  `engineEdge`. Safe: the model stops where the spec says nothing. -/
  | countExhausted
deriving DecidableEq, Repr

/-- Reasons for a refusal. -/
inductive Refusal where
  /-- The command has no meaning in the model yet. Raised by `exec`'s arms, of which none is left. Safe. -/
  | notModelled (mnemonic : String)
  /-- The configuration breaks 00_scope.md R6 or R8: "a model must refuse the configuration rather than give it one".
  Raised by `step`. Safe. -/
  | configurationRefused
deriving DecidableEq, Repr

/-- The complete state (10_state.md R20), the instance's constants, and two fields of the model's own: the inputs to
come and the last response. -/
structure State where
  /-- The elaboration constants (00_scope.md R5, R7, R8; 10_state.md R26, R27): no step changes them. -/
  cfg    : Config
  /-- Operand register X (10_state.md R21). -/
  x      : Limbs
  /-- Operand register Y (10_state.md R22). -/
  y      : Limbs
  /-- Result register Z (10_state.md R23). -/
  z      : Limbs
  /-- STATUS bit 0 (10_state.md R25). -/
  busy   : Bool
  /-- STATUS bit 1 (10_state.md R25). -/
  done   : Bool
  /-- STATUS bit 2 (10_state.md R25, R28). -/
  flag   : Bool
  /-- STATUS bit 3 (10_state.md R25). -/
  ill    : Bool
  /-- STATUS bit 4 (10_state.md R25). -/
  drop   : Bool
  /-- Copy of X taken at acceptance (10_state.md R31). -/
  xl     : Limbs
  /-- Copy of Y taken at acceptance (10_state.md R31). -/
  yl     : Limbs
  /-- Opcode of the command in flight (10_state.md R31). -/
  opl    : BitVec 4
  /-- Cycles left until completion (10_state.md R31). -/
  cnt    : Nat
  /-- The model's own: what the coming rising edges present, the next first (log 1). -/
  inputs : List Edge
  /-- The model's own: the response at the last edge (log 6). -/
  resp   : Response
deriving DecidableEq, Repr

/-- The reset values of 10_state.md R33 in the instance `c`. -/
def State.resetIn (c : Config) : State where
  cfg    := c
  x      := Limbs.zero
  y      := Limbs.zero
  z      := Limbs.zero
  busy   := false
  done   := false
  flag   := false
  ill    := false
  drop   := false
  xl     := Limbs.zero
  yl     := Limbs.zero
  opl    := 0
  cnt    := 0
  inputs := []
  resp   := .none

/-- The machine right after reset: every register at the value of 10_state.md R33, in the reference configuration of
00_scope.md R9 (DESIGN CHOICE, log 2), nothing pending at the inputs. -/
def State.reset : State := State.resetIn Config.reference

end Sys2Proof.Machine
end

