-- ==== Sys2Proof/Machine/Flags.lean ====
section
/-! DEFINITION. The condition flag each command writes (10_state.md rule R28; 30_encoding.md R84) and the STATUS word
(10_state.md R25). -/

namespace Sys2Proof.Machine

/-- `FLAG` of MAC, MACX and ADC: 1 iff the high limb is nonzero (10_state.md R28). -/
def flagOfHigh (hi : Word) : Bool := decide (hi ≠ 0)

/-- `FLAG` of SBB: 1 iff the borrow out is 1 (10_state.md R28). -/
def flagOfBorrow (borrowOut : Word) : Bool := decide (borrowOut = 1)

/-- `FLAG` of MUL, MULE and RED: 1 iff the conditional subtraction subtracted `P` (10_state.md R28). -/
def flagOfTaken (taken : Bool) : Bool := taken

/-- `FLAG` of GEQ: the comparison result (10_state.md R28). -/
def flagOfCompare (g : Bool) : Bool := g

/-- What a read of STATUS returns (10_state.md R25). -/
def statusWord (s : State) : Word :=
  BitVec.ofNat 64
    (s.drop.toNat * 2 ^ 4 + s.ill.toNat * 2 ^ 3 + s.flag.toNat * 2 ^ 2 + s.done.toNat * 2 ^ 1 + s.busy.toNat)

/-- A host write of `v` to STATUS: bits 1, 3 and 4 clear DONE, ILL and DROP where `v` has a 1; every other bit is
ignored (10_state.md R25). -/
def statusWrite (v : Word) (s : State) : State :=
  { s with
    done := s.done && !v.getLsbD 1
    ill  := s.ill && !v.getLsbD 3
    drop := s.drop && !v.getLsbD 4 }

end Sys2Proof.Machine
end

