-- ==== Sys2Proof/Machine/Operands.lean ====
section
/-! DEFINITION. Operand assembly and result layout (30_encoding.md rules R83, R84). Every operand is a full limb of the
latched copies `XL`, `YL`: nothing is extended, scaled or shifted. -/

namespace Sys2Proof.Machine

/-- The operand `a` of MUL, MULE, GEQ and RED: `XL[0..3]` (R83). -/
def vectorA (s : State) : Limbs := s.xl

/-- The operand `b` of MUL, MULE and GEQ: `YL[0..3]` (R83). -/
def vectorB (s : State) : Limbs := s.yl

/-- The first scalar argument, `a` of MAC, MACX, ADC and SBB: `XL[0]` (R83). -/
def scalar0 (s : State) : Word := s.xl.l0

/-- The second scalar argument, `b`: `XL[1]` (R83). -/
def scalar1 (s : State) : Word := s.xl.l1

/-- The third scalar argument: `c` of MAC and MACX, `carry` of ADC, `borrow` of SBB: `XL[2]` (R83). -/
def scalar2 (s : State) : Word := s.xl.l2

/-- The fourth scalar argument, `carry` of MAC: `XL[3]` (R83). -/
def scalar3 (s : State) : Word := s.xl.l3

/-- A boolean as a result limb or flag: 1 for true, 0 for false (R87). -/
def wordOfBool (b : Bool) : Word := if b then 1 else 0

/-- The result layout of MAC, MACX, ADC and SBB: `[lo, hi, 0, 0]` (R84). -/
def pairResult (lo hi : Word) : Limbs := ⟨lo, hi, 0, 0⟩

/-- The result layout of GEQ: `[1 or 0, 0, 0, 0]` (R84). -/
def boolResult (g : Bool) : Limbs := ⟨wordOfBool g, 0, 0, 0⟩

end Sys2Proof.Machine
end

