-- ==== Sys2Proof/Machine/Ops.lean ====
section
/-! DEFINITION. The named operations over the register window and the engine's registers: the map (20_memory.md R51),
reads and writes (R53, R54), the three conditions (60_exceptions.md R211-R214), acceptance and completion of a command
(30_encoding.md R85, R86) and reset (70_reset_and_hazards.md R240). The block has no trap and no return from one
(60_exceptions.md R216, R217): each condition is one shared operation here, and its outcome is a next state. -/

namespace Sys2Proof.Machine

/-! ### The register map -/

/-- The registers of the window (20_memory.md R51); `k` is a limb's index. -/
inductive Reg where
  | x (k : Fin 4)
  | y (k : Fin 4)
  | z (k : Fin 4)
  | cmd
  | status
  | caps
  | p (k : Fin 4)
  | inv
  | r1 (k : Fin 4)
  | r2 (k : Fin 4)
  | r3 (k : Fin 4)
deriving DecidableEq, Repr

/-- A register's offset: "limb `k` sits at the group's first offset plus `8·k`" (20_memory.md R51). -/
def regOffset : Reg → Nat
  | .x k    => 0x000 + 8 * k.val
  | .y k    => 0x020 + 8 * k.val
  | .z k    => 0x040 + 8 * k.val
  | .cmd    => 0x060
  | .status => 0x068
  | .caps   => 0x070
  | .p k    => 0x080 + 8 * k.val
  | .inv    => 0x0A0
  | .r1 k   => 0x0C0 + 8 * k.val
  | .r2 k   => 0x0E0 + 8 * k.val
  | .r3 k   => 0x100 + 8 * k.val

/-- One register for each limb. -/
def limbGroup (f : Fin 4 → Reg) : List Reg := [f 0, f 1, f 2, f 3]

/-- Every register of the window (20_memory.md R51). -/
def windowRegs : List Reg :=
  limbGroup .x ++ limbGroup .y ++ limbGroup .z ++ [.cmd, .status, .caps] ++ limbGroup .p ++ [.inv] ++
    limbGroup .r1 ++ limbGroup .r2 ++ limbGroup .r3

/-- The register at an offset; `none` where no register starts: a reserved or misaligned offset (20_memory.md R51). -/
def regAt (off : Nat) : Option Reg := windowRegs.find? (fun r => decide (regOffset r = off))

/-- The bytes of the window: 0x000 to 0x1FF (20_memory.md R50). -/
def windowSize : Nat := 0x200

/-- The offset of a platform address in the window; `none` where the address is not the block's (20_memory.md R50;
log 7: the first byte of an access decides). -/
def windowOffset (c : Config) (addr : Nat) : Option Nat :=
  if c.base ≤ addr ∧ addr < c.base + windowSize then some (addr - c.base) else none

/-- The value of a register (10_state.md R21-R27). -/
def readReg (r : Reg) (s : State) : Word :=
  match r with
  | .x k    => s.x.get k
  | .y k    => s.y.get k
  | .z k    => s.z.get k
  | .cmd    => 0
  | .status => statusWord s
  | .caps   => wordOfBool s.cfg.edmOk
  | .p k    => s.cfg.p.get k
  | .inv    => s.cfg.inv
  | .r1 k   => s.cfg.r1.get k
  | .r2 k   => s.cfg.r2.get k
  | .r3 k   => s.cfg.r3.get k

/-- The byte a byte-addressed host sees at offset `a` of the window: byte `a mod 8` of the register at `a - a mod 8`
(20_memory.md R55); `none` at a reserved offset. -/
def windowByte (s : State) (a : Nat) : Option Byte :=
  (regAt (a - a % 8)).map (fun r => byteOfWord (readReg r s) (a % 8))

/-! ### The three conditions -/

/-- An access the block does not perform: an error response and no other effect (60_exceptions.md R214). -/
def raiseBusError (s : State) : State := { s with resp := .error }

/-- An illegal command written while idle: `DONE <- 0; ILL <- 1; DONE <- 1` (60_exceptions.md R212). -/
def raiseIllegal (s : State) : State := { s with done := true, ill := true }

/-- A command written while busy: `DROP <- 1` (60_exceptions.md R213). -/
def raiseDropped (s : State) : State := { s with drop := true }

/-! ### A command's life -/

/-- Acceptance of a legal command (30_encoding.md R85). -/
def accept (i : Instr) (s : State) : State :=
  { s with
    done := false
    xl   := s.x
    yl   := s.y
    opl  := i.opcode
    cnt  := s.cfg.latOf i
    busy := true }

/-- A host write of `v` to CMD (30_encoding.md R85): dropped while busy, else accepted or illegal. -/
def commandWrite (v : Word) (s : State) : State :=
  if s.busy then raiseDropped s
  else
    match decode v with
    | .ok i    => if i.wf s.cfg then accept i s else raiseIllegal s
    | .error _ => raiseIllegal s

/-- The completion event: the result `(z, f)` of `F` into `Z` and `FLAG`, `BUSY <- 0`, `DONE <- 1`, all at once
(30_encoding.md R86). -/
def complete (result : Limbs × Bool) (s : State) : State :=
  { s with z := result.1, flag := result.2, busy := false, done := true }

/-! ### Host accesses -/

/-- A write of `v` to a register, where it is writable; `none` for a read-only register (20_memory.md R54). -/
def writeReg (r : Reg) (v : Word) (s : State) : Option State :=
  match r with
  | .x k    => some { s with x := s.x.set k v }
  | .y k    => some { s with y := s.y.set k v }
  | .cmd    => some (commandWrite v s)
  | .status => some (statusWrite v s)
  | .z _    => none
  | .caps   => none
  | .p _    => none
  | .inv    => none
  | .r1 _   => none
  | .r2 _   => none
  | .r3 _   => none

/-- The platform address of an access. -/
def accessAddr : Access → Nat
  | .read addr _    => addr
  | .write addr _ _ => addr

/-- The width of an access in bytes. -/
def accessWidth : Access → Nat
  | .read _ width    => width
  | .write _ width _ => width

/-- A host read of a register: its value, and no effect on any register (20_memory.md R53). -/
def hostRead (r : Reg) (s : State) : State := { s with resp := .data (readReg r s) }

/-- A host write of `v` to a register (20_memory.md R54). -/
def hostWrite (r : Reg) (v : Word) (s : State) : State :=
  match writeReg r v s with
  | some t => { t with resp := .ok }
  | none   => raiseBusError s

/-- An aligned 8-byte access performed at the register it names (20_memory.md R60). -/
def performAt (a : Access) (r : Reg) (s : State) : State :=
  match a with
  | .read _ _    => hostRead r s
  | .write _ _ v => hostWrite r v s

/-- A host access outside reset (20_memory.md R52-R54), with the order of its checks as in 60_exceptions.md R215. An
address outside the window is not the block's (log 7). -/
def hostAccess (a : Access) (s : State) : State :=
  match windowOffset s.cfg (accessAddr a) with
  | none     => { s with resp := .none }
  | some off =>
    if accessWidth a ≠ 8 ∨ off % 8 ≠ 0 then raiseBusError s
    else
      match regAt off with
      | none   => raiseBusError s
      | some r => performAt a r s

/-- The host's part of an edge outside reset: at most one access. -/
def hostPart (a : Option Access) (s : State) : State :=
  match a with
  | none   => { s with resp := .none }
  | some a => hostAccess a s

/-! ### Reset -/

/-- The reset event at one edge (70_reset_and_hazards.md R240): every element of the block's state at its reset value
(10_state.md R33); the constants stay. An access of that edge is answered with an error and has no effect (R241). The
inputs still to come are the outside's and stay. -/
def resetEdge (a : Option Access) (s : State) : State :=
  { State.resetIn s.cfg with
    inputs := s.inputs
    resp   :=
      match a with
      | none   => .none
      | some a =>
        match windowOffset s.cfg (accessAddr a) with
        | none   => .none
        | some _ => .error }

end Sys2Proof.Machine
end

