-- ==== Sys2Proof/Machine/LimbPrimitives.lean ====
section
/-! DEFINITION. The limb primitives and their commands MAC, MACX, ADC, SBB (40_limb_primitives.md rules R110-R118).
Each computes in a 128-bit intermediate and is total over `u64` (00_scope.md R13). -/

namespace Sys2Proof.Machine

/-- `zext_128(v)` (00_scope.md R10). -/
def zext128 (v : Word) : BitVec 128 := v.setWidth 128

/-- `lo64(s)` (00_scope.md R10). -/
def lo64 (s : BitVec 128) : Word := s.setWidth 64

/-- `hi64(s)` (00_scope.md R10). -/
def hi64 (s : BitVec 128) : Word := (s >>> 64).setWidth 64

/-- `mac(a, b, c, carry)`: the two halves of `a + b·c + carry` (R110). -/
def mac (a b c carry : Word) : Word × Word :=
  let s := zext128 a + zext128 b * zext128 c + zext128 carry
  (lo64 s, hi64 s)

/-- `macx(a, b, c)`: `mac` with carry 0 (R112). -/
def macx (a b c : Word) : Word × Word := mac a b c 0

/-- `adc(a, b, carry)`: the two halves of `a + b + carry` (R114). -/
def adc (a b carry : Word) : Word × Word :=
  let s := zext128 a + zext128 b + zext128 carry
  (lo64 s, hi64 s)

/-- `sbb(a, b, borrow)`: `2^64 + a − b − borrow` in 128 bits; the borrow out is 1 iff the high half is 0 (R116; the
reduction mod 2^128 is the spec's decision D22, log 12). -/
def sbb (a b borrow : Word) : Word × Word :=
  let s := 0x10000000000000000#128 + zext128 a - zext128 b - zext128 borrow
  (lo64 s, if hi64 s = 0 then 1 else 0)

/-- `F(0x3, x, y)` (30_encoding.md R87). -/
def macResult (a b c carry : Word) : Limbs × Bool :=
  let r := mac a b c carry
  (pairResult r.1 r.2, flagOfHigh r.2)

/-- `F(0x4, x, y)` (30_encoding.md R87). -/
def macxResult (a b c : Word) : Limbs × Bool :=
  let r := macx a b c
  (pairResult r.1 r.2, flagOfHigh r.2)

/-- `F(0x5, x, y)` (30_encoding.md R87). -/
def adcResult (a b carry : Word) : Limbs × Bool :=
  let r := adc a b carry
  (pairResult r.1 r.2, flagOfHigh r.2)

/-- `F(0x6, x, y)` (30_encoding.md R87). -/
def sbbResult (a b borrow : Word) : Limbs × Bool :=
  let r := sbb a b borrow
  (pairResult r.1 r.2, flagOfBorrow r.2)

/-- Command MAC (R111). -/
def execMac (s : State) : Host.Outcome State Fault Refusal :=
  .next (complete (macResult (scalar0 s) (scalar1 s) (scalar2 s) (scalar3 s)) s)

/-- Command MACX (R113). -/
def execMacx (s : State) : Host.Outcome State Fault Refusal :=
  .next (complete (macxResult (scalar0 s) (scalar1 s) (scalar2 s)) s)

/-- Command ADC (R115). -/
def execAdc (s : State) : Host.Outcome State Fault Refusal :=
  .next (complete (adcResult (scalar0 s) (scalar1 s) (scalar2 s)) s)

/-- Command SBB (R117). -/
def execSbb (s : State) : Host.Outcome State Fault Refusal :=
  .next (complete (sbbResult (scalar0 s) (scalar1 s) (scalar2 s)) s)

end Sys2Proof.Machine
end

