-- ==== Sys2Proof/Machine/CompareReduce.lean ====
section
/-! DEFINITION. Comparison and modular reduction, and their commands GEQ, RED (41_compare_reduce.md rules R140-R143). -/

namespace Sys2Proof.Machine

/-- The loop of `greater_or_equal` over pairs of limbs, the most significant pair first: the first pair that differs
decides, and no pair differing answers true (R140). -/
def geqFrom : List (Word × Word) → Bool
  | []           => true
  | (a, b) :: ps => if a > b then true else if a < b then false else geqFrom ps

/-- `greater_or_equal(a, b)`: limbs 3 down to 0 (R140). -/
def greaterOrEqual (a b : Limbs) : Bool :=
  geqFrom [(a.l3, b.l3), (a.l2, b.l2), (a.l1, b.l1), (a.l0, b.l0)]

/-- The four-limb subtract-with-borrow chain from borrow 0; the final borrow is the second component (R142). -/
def subtractChain (a p : Limbs) : Limbs × Word :=
  let d0 := sbb a.l0 p.l0 0
  let d1 := sbb a.l1 p.l1 d0.2
  let d2 := sbb a.l2 p.l2 d1.2
  let d3 := sbb a.l3 p.l3 d2.2
  (⟨d0.1, d1.1, d2.1, d3.1⟩, d3.2)

/-- `conditional_subtract(a, p)`: the result and whether `p` was subtracted; the final borrow is discarded (R142). -/
def conditionalSubtract (a p : Limbs) : Limbs × Bool :=
  if greaterOrEqual a p then ((subtractChain a p).1, true) else (a, false)

/-- `F(0x7, x, y)` (30_encoding.md R87). -/
def geqResult (a b : Limbs) : Limbs × Bool :=
  let g := greaterOrEqual a b
  (boolResult g, flagOfCompare g)

/-- `F(0x8, x, y)` (30_encoding.md R87). -/
def redResult (c : Config) (a : Limbs) : Limbs × Bool :=
  let r := conditionalSubtract a c.p
  (r.1, flagOfTaken r.2)

/-- Command GEQ (R141). -/
def execGeq (s : State) : Host.Outcome State Fault Refusal :=
  .next (complete (geqResult (vectorA s) (vectorB s)) s)

/-- Command RED (R143). -/
def execRed (s : State) : Host.Outcome State Fault Refusal :=
  .next (complete (redResult s.cfg (vectorA s)) s)

end Sys2Proof.Machine
end

