-- ==== Sys2Proof/Machine/CiosMul.lean ====
section
/-! DEFINITION. The standard CIOS Montgomery multiplier and its command MUL (42_cios_mul.md rules R160-R165), with the two
`mac` chains that the carry-saving multiplier shares. The accumulators exist inside one evaluation only (10_state.md R32). -/

namespace Sys2Proof.Machine

/-- The accumulating chain from carry 0: `(t[j], carry) <- mac(t[j], u[j], v[j], carry)` for `j` in 0..4 (R160 step 1;
43_edmsm_mul.md R190). The loop that holds an operand's limb fixed passes `Limbs.splat` of it. -/
def macChain (t u v : Limbs) : Limbs × Word :=
  let r0 := mac t.l0 u.l0 v.l0 0
  let r1 := mac t.l1 u.l1 v.l1 r0.2
  let r2 := mac t.l2 u.l2 v.l2 r1.2
  let r3 := mac t.l3 u.l3 v.l3 r2.2
  (⟨r0.1, r1.1, r2.1, r3.1⟩, r3.2)

/-- The reducing chain: `macx` on limb 0 with the low half discarded, then `(t[j-1], carry) <- mac(t[j], m, p[j], carry)`
for `j` in 1..4. Limb 3 of the first component is still `t[3]`; the second is the last carry (R160 step 4;
43_edmsm_mul.md R190). -/
def reduceChain (t : Limbs) (m : Word) (p : Limbs) : Limbs × Word :=
  let r0 := macx t.l0 m p.l0
  let r1 := mac t.l1 m p.l1 r0.2
  let r2 := mac t.l2 m p.l2 r1.2
  let r3 := mac t.l3 m p.l3 r2.2
  (⟨r1.1, r2.1, r3.1, t.l3⟩, r3.2)

/-- The running accumulator of R160: four limbs and the carry that survives an iteration. `c2` is 0 or written before it
is read in every iteration (step 2), so it is local to `ciosRound`. -/
structure CiosAcc where
  t  : Limbs
  c1 : Word
deriving DecidableEq, Repr

/-- One outer iteration of R160, steps 1 to 5, for the limb `ai` of `a`. -/
def ciosRound (c : Config) (b : Limbs) (acc : CiosAcc) (ai : Word) : CiosAcc :=
  let s1 := macChain acc.t (Limbs.splat ai) b
  let s2 := adc acc.c1 s1.2 0
  let m  := s1.1.l0 * c.inv
  let s4 := reduceChain s1.1 m c.p
  let s5 := adc s2.1 s4.2 0
  { t := { s4.1 with l3 := s5.1 }, c1 := s2.2 + s5.2 }

/-- The four outer iterations over the limbs of `a`, from `t = 0`, `c1 = 0` (R160). -/
def ciosLoop (c : Config) (a b : Limbs) : CiosAcc :=
  [a.l0, a.l1, a.l2, a.l3].foldl (ciosRound c b) { t := Limbs.zero, c1 := 0 }

/-- `mont_mul_cios(a, b)`: the loop, then one conditional subtraction of the four limbs; the final `c1` is not used (R160). -/
def montMulCios (c : Config) (a b : Limbs) : Limbs × Bool :=
  conditionalSubtract (ciosLoop c a b).t c.p

/-- `F(0x1, x, y)` (30_encoding.md R87). -/
def mulResult (c : Config) (a b : Limbs) : Limbs × Bool :=
  let r := montMulCios c a b
  (r.1, flagOfTaken r.2)

/-- Command MUL (R161). -/
def execMul (s : State) : Host.Outcome State Fault Refusal :=
  .next (complete (mulResult s.cfg (vectorA s) (vectorB s)) s)

end Sys2Proof.Machine
end

