-- ==== Sys2Proof/Machine/EdmsmMul.lean ====
section
/-! DEFINITION. The carry-saving (EDMSM) Montgomery multiplier and its command MULE (43_edmsm_mul.md rules R190-R196). -/

namespace Sys2Proof.Machine

/-- One outer iteration of R190 for the limb `bi` of `b`. `t[4]` is written by the multiply-accumulate phase before the
sum reads it, so it is local to the iteration. The sum `t[4] +64 C` wraps silently. -/
def edmsmRound (c : Config) (a : Limbs) (t : Limbs) (bi : Word) : Limbs :=
  let s1 := macChain t a (Limbs.splat bi)
  let t4 := s1.2
  let m  := s1.1.l0 * c.inv
  let s2 := reduceChain s1.1 m c.p
  { s2.1 with l3 := t4 + s2.2 }

/-- The four outer iterations over the limbs of `b`, from `t = 0` (R190). -/
def edmsmLoop (c : Config) (a b : Limbs) : Limbs :=
  [b.l0, b.l1, b.l2, b.l3].foldl (edmsmRound c a) Limbs.zero

/-- `mont_mul_edmsm(a, b)` (R190). -/
def montMulEdmsm (c : Config) (a b : Limbs) : Limbs × Bool :=
  conditionalSubtract (edmsmLoop c a b) c.p

/-- `F(0x2, x, y)` (30_encoding.md R87). -/
def muleResult (c : Config) (a b : Limbs) : Limbs × Bool :=
  let r := montMulEdmsm c a b
  (r.1, flagOfTaken r.2)

/-- Command MULE (R191); its legality is a matter of acceptance (30_encoding.md R82). -/
def execMule (s : State) : Host.Outcome State Fault Refusal :=
  .next (complete (muleResult s.cfg (vectorA s) (vectorB s)) s)

end Sys2Proof.Machine
end

