-- ==== Sys2Proof/Machine/Dispatch.lean ====
section
/-! DEFINITION. The dispatch of the command in flight: one arm per constructor (30_encoding.md rule R87). -/

namespace Sys2Proof.Machine

def exec (i : Instr) (s : State) : Host.Outcome State Fault Refusal :=
  match i with
  | .mul => Sys2Proof.Machine.execMul s
  | .mule => Sys2Proof.Machine.execMule s
  | .mac => Sys2Proof.Machine.execMac s
  | .macx => Sys2Proof.Machine.execMacx s
  | .adc => Sys2Proof.Machine.execAdc s
  | .sbb => Sys2Proof.Machine.execSbb s
  | .geq => Sys2Proof.Machine.execGeq s
  | .red => Sys2Proof.Machine.execRed s

end Sys2Proof.Machine
end

