-- ==== Sys2Proof/Machine/Engine.lean ====
section
/-! DEFINITION. One rising edge of `clk`: the engine's part (30_encoding.md rule R86), then the host's (70_reset_and_hazards.md
R248), or reset, which takes precedence over both (R240, R241; 60_exceptions.md R215). -/

namespace Sys2Proof.Machine

/-- An edge with nothing presented (log 5). -/
def idleEdge : Edge := { rst := false, access := none }

/-- What the next edge presents: the head of the inputs, or nothing once they are used up (log 5). -/
def nextEdge (s : State) : Edge := s.inputs.headD idleEdge

/-- The state with the next edge's inputs taken. -/
def takeEdge (s : State) : State := { s with inputs := s.inputs.tail }

/-- The engine at one edge (30_encoding.md R86): while busy `CNT <- CNT − 1`, and where it reaches 0 the command in flight
runs: `exec` of the command whose opcode is `OPL`. -/
def engineEdge (s : State) : Host.Outcome State Fault Refusal :=
  if s.busy then
    match s.cnt with
    | 0     => .fault .countExhausted
    | 1     =>
      match decodeOp s.opl with
      | .ok i    => exec i { s with cnt := 0 }
      | .error _ => .fault .opcodeUndefined
    | n + 2 => .next { s with cnt := n + 1 }
  else .next s

/-- One rising edge presenting `e`: reset, or the engine's part and then the host's on the state it left. -/
def clockEdge (e : Edge) (s : State) : Host.Outcome State Fault Refusal :=
  if e.rst then .next (resetEdge e.access s)
  else
    match engineEdge s with
    | .next t    => .next (hostPart e.access t)
    | .fault r   => .fault r
    | .refused r => .refused r

/-- A bus write of the word `v` to CMD in the instance `c`, at an edge of its own. -/
def cmdWriteEdge (c : Config) (v : Word) : Edge :=
  { rst := false, access := some (.write (c.base + regOffset .cmd) 8 v) }

/-- The state in which the next edge runs the command of the word `v`: the block idle, then `v` accepted with one cycle
left, and an edge that presents nothing. A word that is not legal runs nothing: its write to CMD is presented instead (log 8). -/
def placeCommand (v : Word) (s : State) : State :=
  match decode v with
  | .ok i    =>
    if i.wf s.cfg then { accept i s with cnt := 1, inputs := idleEdge :: s.inputs }
    else { s with busy := false, cnt := 0, inputs := cmdWriteEdge s.cfg v :: s.inputs }
  | .error _ => { s with busy := false, cnt := 0, inputs := cmdWriteEdge s.cfg v :: s.inputs }

end Sys2Proof.Machine
end

