-- ==== Sys2Proof/Machine/Step.lean ====
section
/-! DEFINITION. One step: one rising edge of `clk` (00_scope.md R14; 30_encoding.md R86; log 1). -/

namespace Sys2Proof.Machine

/-- One rising edge with the next inputs. A configuration that breaks 00_scope.md R6 or R8 is refused. -/
def step (s : State) : Host.Outcome State Fault Refusal :=
  if s.cfg.wf then clockEdge (nextEdge s) (takeEdge s) else .refused .configurationRefused

/-- `s` with the command word of `w`'s low `nbits` bits placed so that the next step runs it (log 8). A number of more
than 64 bits is no command word and places nothing. -/
def State.withFetchWord (s : State) (nbits w : Nat) : State :=
  match tableWord nbits w with
  | some v => placeCommand v s
  | none   => s

end Sys2Proof.Machine
end

