-- ==== Sys2Proof/Machine/HostProgram.lean ====
section
/-! DEFINITION. Host programs: the statements and pseudo-instructions of 30_encoding.md rules R89 and R90, their bus
transactions, and the host agent that runs them on the block. The host's program, variables and position are the host's,
not the block's (10_state.md R20, R29), so they stand outside State. What the host does with a bus error is the parameter
`BUS_ERR_HOST` (60_exceptions.md R214), and the idle edges before each access are the host's own timing (log 14). -/

namespace Sys2Proof.Machine

/-- A host variable: a name (a number here), and for a 4-limb variable which limb (R89, R90). A plain variable is limb 0. -/
structure HostVar where
  name : Nat
  limb : Fin 4
deriving DecidableEq, Repr

/-- What a `WR` writes: a literal or a host variable (R89). -/
inductive HostValue where
  | imm (v : Word)
  | var (n : HostVar)
deriving DecidableEq, Repr

/-- The statements of R89. An offset has 9 bits. -/
inductive HostStmt where
  | wr (off : BitVec 9) (v : HostValue)
  | rd (off : BitVec 9) (dst : Option HostVar)
  | poll (off : BitVec 9) (mask val : Word)
  | label (name : Nat)
deriving DecidableEq, Repr

/-- A 256-bit operand of a pseudo-instruction: a literal or a 4-limb variable set by RDZ (R90). -/
inductive WideValue where
  | lit (n : BitVec 256)
  | var (name : Nat)
deriving DecidableEq, Repr

/-- The pseudo-instructions of R90. `go` takes a value, as the programs' `GO 0x9` does; a mnemonic stands for its
command word (R89). -/
inductive Pseudo where
  | ldx (n : WideValue)
  | ldy (n : WideValue)
  | lds (a b c d : HostValue)
  | go (v : HostValue)
  | goCmd (i : Instr)
  | wait
  | rdz (z : Nat)
  | clr
  | mmul (a b : WideValue) (z : Nat)
deriving DecidableEq, Repr

/-- Limb `k` of a 256-bit operand (R90). -/
def wideLimb (n : WideValue) (k : Fin 4) : HostValue :=
  match n with
  | .lit n    => .imm (n.extractLsb' (64 * k.val) 64)
  | .var name => .var { name := name, limb := k }

/-- Offset of a register as the 9-bit field of a statement. -/
def stmtOffset (r : Reg) : BitVec 9 := BitVec.ofNat 9 (regOffset r)

/-- Four writes of a 256-bit operand to a limb group, limb 0 first. -/
def loadGroup (f : Fin 4 → Reg) (n : WideValue) : List HostStmt :=
  [.wr (stmtOffset (f 0)) (wideLimb n 0), .wr (stmtOffset (f 1)) (wideLimb n 1),
   .wr (stmtOffset (f 2)) (wideLimb n 2), .wr (stmtOffset (f 3)) (wideLimb n 3)]

/-- `GO` of a value: one write to CMD (R90). -/
def goStmts (v : HostValue) : List HostStmt := [.wr (stmtOffset .cmd) v]

/-- `WAIT`: poll STATUS until BUSY is 0 (R90). -/
def waitStmts : List HostStmt := [.poll (stmtOffset .status) 0x1#64 0x0#64]

/-- `RDZ`: read the four limbs of Z into the variable (R90). -/
def rdzStmts (z : Nat) : List HostStmt :=
  [.rd (stmtOffset (.z 0)) (some { name := z, limb := 0 }), .rd (stmtOffset (.z 1)) (some { name := z, limb := 1 }),
   .rd (stmtOffset (.z 2)) (some { name := z, limb := 2 }), .rd (stmtOffset (.z 3)) (some { name := z, limb := 3 })]

/-- The expansions of R90. -/
def expand : Pseudo → List HostStmt
  | .ldx n       => loadGroup .x n
  | .ldy n       => loadGroup .y n
  | .lds a b c d =>
    [.wr (stmtOffset (.x 0)) a, .wr (stmtOffset (.x 1)) b, .wr (stmtOffset (.x 2)) c, .wr (stmtOffset (.x 3)) d]
  | .go v        => goStmts v
  | .goCmd i     => goStmts (.imm (encode i))
  | .wait        => waitStmts
  | .rdz z       => rdzStmts z
  | .clr         => [.wr (stmtOffset .status) (.imm 0x1A#64)]
  | .mmul a b z  =>
    loadGroup .x a ++ loadGroup .y b ++ goStmts (.imm (encode .mul)) ++ waitStmts ++ rdzStmts z

/-- A bus transaction `(rw, off, data)` (R89): `rw` is 1 for a write, and only a write has data. -/
structure Transaction where
  rw   : Bool
  off  : BitVec 9
  data : Option Word
deriving DecidableEq, Repr

/-- The host's variables: what is listed is set, anything else is undefined (R89). -/
abbrev HostEnv := List (HostVar × Word)

/-- A variable's value; `none` while it is undefined (R89). -/
def envGet (env : HostEnv) (n : HostVar) : Option Word :=
  match env with
  | []           => none
  | (m, v) :: es => if m = n then some v else envGet es n

/-- A variable undefined again: a read answered with an error gives it no value (60_exceptions.md R214, I13). -/
def envClear (env : HostEnv) (n : HostVar) : HostEnv := env.filter (fun e => decide (e.1 ≠ n))

/-- A variable set. -/
def envSet (env : HostEnv) (n : HostVar) (v : Word) : HostEnv := (n, v) :: envClear env n

/-- The value a `WR` writes; `none` for an undefined variable. -/
def valueOf (env : HostEnv) : HostValue → Option Word
  | .imm v => some v
  | .var n => envGet env n

/-- The transaction of one execution of a statement (R89); a label has none, and a `WR` of an undefined variable has none. -/
def transactionOf (env : HostEnv) : HostStmt → Option Transaction
  | .wr off v     => (valueOf env v).map (fun w => { rw := true, off := off, data := some w })
  | .rd off _     => some { rw := false, off := off, data := none }
  | .poll off _ _ => some { rw := false, off := off, data := none }
  | .label _      => none

/-- The access of a transaction on the block at `base`: 8 bytes wide (R89). -/
def transactionAccess (base : Nat) (t : Transaction) : Access :=
  match t.data with
  | some v => .write (base + t.off.toNat) 8 v
  | none   => .read (base + t.off.toNat) 8

/-- The variables a program reads before an earlier `RD` sets them make it ill formed (R89). -/
def programDefined : List HostVar → List HostStmt → Bool
  | _, []                            => true
  | known, .wr _ (.imm _) :: ps      => programDefined known ps
  | known, .wr _ (.var n) :: ps      => known.contains n && programDefined known ps
  | known, .rd _ (some n) :: ps      => programDefined (n :: known) ps
  | known, .rd _ none :: ps          => programDefined known ps
  | known, .poll _ _ _ :: ps         => programDefined known ps
  | known, .label _ :: ps            => programDefined known ps

/-- `BUS_ERR_HOST`: what the host does with an error response (60_exceptions.md R214). DESIGN CHOICE of the values: stop
the program, or go on without the value of a failed read (log 14). -/
inductive BusErrHost where
  | stop
  | ignore
deriving DecidableEq, Repr

/-- The host agent: the statements left and its variables. -/
structure HostState where
  todo       : List HostStmt
  env        : HostEnv
  onBusError : BusErrHost
deriving DecidableEq, Repr

/-- Why a host program stops. -/
inductive HostFault where
  /-- The program used an undefined variable (R89). -/
  | undefinedVariable
  /-- The block answered with an error and `BUS_ERR_HOST` is `stop`. -/
  | busError
  /-- `BUS_ERR_HOST` is `ignore` and a `POLL` had to compare the value of a read that was answered without one: "a host
  that uses one has a fault" (60_exceptions.md R214, I13). -/
  | missingValue
  /-- The block itself stopped: its configuration is refused, or its state is out of range (log 9, log 10). -/
  | blockStopped
deriving DecidableEq, Repr

/-- How a run of a host program ends. -/
inductive HostOutcome where
  | finished (h : HostState) (s : State)
  /-- The given timing is used up first. -/
  | paused (h : HostState) (s : State)
  | fault (r : HostFault) (h : HostState) (s : State)
deriving DecidableEq, Repr

/-- One transaction on the bus after `gap` idle edges. -/
def transact (gap : Nat) (a : Access) (s : State) : Host.Outcome State Fault Refusal :=
  Host.Core.run Sys2Proof.core (gap + 1)
    { s with inputs := List.replicate gap idleEdge ++ [{ rst := false, access := some a }] }

/-- The host after the response `r` to its first statement. A `RD` answered without data leaves its variable undefined, so
that a later use is a fault. A `POLL` uses the value it reads: with one that is not yet the wanted one it stands again
(R89), and without one it is a fault (60_exceptions.md R214, I13). -/
def afterResponse (r : Response) (h : HostState) : Except HostFault HostState :=
  match h.todo with
  | []                     => .ok h
  | .wr _ _ :: ps          => .ok { h with todo := ps }
  | .label _ :: ps         => .ok { h with todo := ps }
  | .rd _ none :: ps       => .ok { h with todo := ps }
  | .rd _ (some n) :: ps   =>
    match r with
    | .data v => .ok { h with todo := ps, env := envSet h.env n v }
    | .none   => .ok { h with todo := ps, env := envClear h.env n }
    | .ok     => .ok { h with todo := ps, env := envClear h.env n }
    | .error  => .ok { h with todo := ps, env := envClear h.env n }
  | .poll _ mask want :: ps =>
    match r with
    | .data v => .ok (if v &&& mask = want then { h with todo := ps } else h)
    | .none   => .error .missingValue
    | .ok     => .error .missingValue
    | .error  => .error .missingValue

/-- One statement of the host after `gap` idle edges. -/
def hostStatement (gap : Nat) (h : HostState) (s : State) : HostOutcome :=
  match h.todo with
  | []             => .finished h s
  | .label _ :: ps => .paused { h with todo := ps } s
  | p :: _         =>
    match transactionOf h.env p with
    | none   => .fault .undefinedVariable h s
    | some t =>
      match transact gap (transactionAccess s.cfg.base t) s with
      | .fault _   => .fault .blockStopped h s
      | .refused _ => .fault .blockStopped h s
      | .next s'   =>
        if s'.resp = .error ∧ h.onBusError = .stop then .fault .busError h s'
        else
          match afterResponse s'.resp h with
          | .ok h'   => .paused h' s'
          | .error r => .fault r h s'

/-- A host program with the idle edges before each statement given, one number for each execution of a statement. -/
def runHost : List Nat → HostState → State → HostOutcome
  | [], h, s        => if h.todo = [] then .finished h s else .paused h s
  | gap :: gs, h, s =>
    match hostStatement gap h s with
    | .paused h' s'   => runHost gs h' s'
    | .finished h' s' => .finished h' s'
    | .fault r h' s'  => .fault r h' s'

/-- `ORDERED_PORT` (20_memory.md R58, D20): where it holds, the accesses arrive in the order the host issued them;
where it does not, in some order of the same accesses. A claim that needs the order takes it as a premise. -/
def Delivered (orderedPort : Bool) (issued arrived : List Access) : Prop :=
  if orderedPort then arrived = issued else arrived.Perm issued

end Sys2Proof.Machine
end

