-- ==== Sys2Proof/Machine/Untimed.lean ====
section
/-! DEFINITION. The untimed reading: "a model may treat the block as a single sequence of atomic events HostRead,
HostWrite, Complete, Reset interleaved in one order" (20_memory.md rule R58; 30_encoding.md R86). Time is forgotten: a
`Complete` may come at any point while a command is in flight. -/

namespace Sys2Proof.Machine

/-- The atomic events of R58; a host access is a HostRead or a HostWrite. -/
inductive Event where
  | access (a : Access)
  | complete
  | reset
deriving DecidableEq, Repr

/-- A state without what only the clock and the bus see: the cycles left, the inputs to come, the last response. -/
def forgetTime (s : State) : State := { s with cnt := 0, inputs := [], resp := .none }

/-- One event on a state without time; `none` where the event cannot occur: a `Complete` with no command in flight, or
with one that `F` does not know (30_encoding.md R86, R87). -/
def applyEvent (e : Event) (s : State) : Option State :=
  match e with
  | .access a => some (forgetTime (hostAccess a s))
  | .reset    => some (forgetTime (resetEdge none s))
  | .complete =>
    if s.busy then
      match decodeOp s.opl with
      | .error _ => none
      | .ok i    =>
        match exec i s with
        | .next t    => some (forgetTime t)
        | .fault _   => none
        | .refused _ => none
    else none

/-- Events one after another. -/
def applyEvents : List Event → State → Option State
  | [], s      => some s
  | e :: es, s =>
    match applyEvent e s with
    | none   => none
    | some t => applyEvents es t

end Sys2Proof.Machine
end

