-- ==== Sys2Proof/Safety.lean ====
section
/-! DEFINITION. The terms in which claims are stated: the invariant of every run, the premises a host must establish
(70_reset_and_hazards.md rules R243, R251), and the exact integers that 42_cios_mul.md R163 and 43_edmsm_mul.md R193 speak of. -/

namespace Sys2Proof

/-- A value below the modulus: an in-domain operand (00_scope.md Glossary). -/
def Config.InDomain (c : Config) (v : Limbs) : Prop := v.val < c.p.val

/-- `INV·P[0] ≡ −1 (mod 2^64)`, the premise of 42_cios_mul.md R163. -/
def Config.InvCorrect (c : Config) : Prop := (c.inv.toNat * c.p.l0.toNat + 1) % 2 ^ 64 = 0

/-- The five constants have the values of 00_scope.md R5 (70_reset_and_hazards.md R243, duty 1). -/
def Config.ConstantsCorrect (c : Config) : Prop :=
  (c.inv.toNat * c.p.val + 1) % 2 ^ 64 = 0 ∧ c.r1.val = 2 ^ 256 % c.p.val ∧
    c.r2.val = 2 ^ 512 % c.p.val ∧ c.r3.val = 2 ^ 768 % c.p.val

/-- The reduction multiplier of one iteration, from the accumulator after the multiply-accumulate phase:
`m = t[0] · INV mod 2^64` (42_cios_mul.md R160 step 3). -/
def Config.reductionMultiplier (c : Config) (n : Nat) : Nat := n % 2 ^ 64 * c.inv.toNat % 2 ^ 64

/-- `floor((T + d + m·val(P)) / 2^64)`: the exact recurrence of one iteration that adds `d` (42_cios_mul.md R163). -/
def Config.montStep (c : Config) (t d : Nat) : Nat :=
  (t + d + c.reductionMultiplier (t + d) * c.p.val) / 2 ^ 64

/-- `T_4` of 42_cios_mul.md R163: the exact accumulator after the four iterations of MUL. -/
def Config.montT4 (c : Config) (a b : Limbs) : Nat :=
  c.montStep (c.montStep (c.montStep (c.montStep 0 (a.l0.toNat * b.val)) (a.l1.toNat * b.val)) (a.l2.toNat * b.val))
    (a.l3.toNat * b.val)

/-- `V_{i+1}` of 43_edmsm_mul.md R193: the same recurrence, wrapped at `2^256`. -/
def Config.edmStep (c : Config) (v d : Nat) : Nat := c.montStep v d % 2 ^ 256

/-- `V_4` of 43_edmsm_mul.md R193. -/
def Config.edmV4 (c : Config) (a b : Limbs) : Nat :=
  c.edmStep (c.edmStep (c.edmStep (c.edmStep 0 (a.val * b.l0.toNat)) (a.val * b.l1.toNat)) (a.val * b.l2.toNat))
    (a.val * b.l3.toNat)

namespace Machine

/-- The execute function `F(op, x, y)` of 30_encoding.md R87 as one function, for claims about a command's result. -/
def commandResult (c : Config) (i : Instr) (x y : Limbs) : Limbs × Bool :=
  match i with
  | .mul  => mulResult c x y
  | .mule => muleResult c x y
  | .mac  => macResult x.l0 x.l1 x.l2 x.l3
  | .macx => macxResult x.l0 x.l1 x.l2
  | .adc  => adcResult x.l0 x.l1 x.l2
  | .sbb  => sbbResult x.l0 x.l1 x.l2
  | .geq  => geqResult x y
  | .red  => redResult c x

/-- The invariant of every run from reset in a well-formed instance: a busy engine holds a command the instance has, with
between 1 and `LAT` cycles left and DONE clear; an idle one has no cycles left. -/
def State.Inv (s : State) : Prop :=
  s.cfg.wf = true ∧
    (s.busy = true →
      s.done = false ∧ 1 ≤ s.cnt ∧
        ∃ i : Instr, i.wf s.cfg = true ∧ s.opl = i.opcode ∧ s.cnt ≤ s.cfg.latOf i) ∧
    (s.busy = false → s.cnt = 0)

/-- While idle, Z and FLAG are together the result of the last accepted command, the one `OPL` names, on the operands latched
for it; before the first one, all are at reset (20_memory.md R56; 30_encoding.md R86; 10_state.md R23, R28). -/
def State.OneResult (s : State) : Prop :=
  s.busy = false →
    (s.opl = 0 ∧ s.z = Limbs.zero ∧ s.flag = false) ∨
      ∃ i : Instr, i.wf s.cfg = true ∧ s.opl = i.opcode ∧ (s.z, s.flag) = commandResult s.cfg i s.xl s.yl

/-- An access whose address is in the window (20_memory.md R50). -/
def inWindow (c : Config) (a : Access) : Prop := c.base ≤ accessAddr a ∧ accessAddr a < c.base + windowSize

/-- An offset of the window that is not the first byte of a register: reserved, or misaligned (20_memory.md R51, R52). The
ranges are those of R51's table. -/
def undefinedOffset (off : Nat) : Prop :=
  off % 8 ≠ 0 ∨ off = 0x078 ∨ (0x0A8 ≤ off ∧ off ≤ 0x0B8) ∨ 0x120 ≤ off

/-- An offset of a read-only register: Z, CAPS, P, INV, R1, R2, R3 (20_memory.md R51, R54). -/
def readOnlyOffset (off : Nat) : Prop :=
  (0x040 ≤ off ∧ off ≤ 0x058) ∨ off = 0x070 ∨ (0x080 ≤ off ∧ off ≤ 0x0A0) ∨ (0x0C0 ≤ off ∧ off ≤ 0x118)

/-- What makes an access of the window a bus error outside reset (60_exceptions.md R214), in the words of that rule. -/
def busErrorCondition (c : Config) (a : Access) : Prop :=
  match a with
  | .read addr width    => width ≠ 8 ∨ undefinedOffset (addr - c.base)
  | .write addr width _ => width ≠ 8 ∨ undefinedOffset (addr - c.base) ∨ readOnlyOffset (addr - c.base)

end Machine

end Sys2Proof
end

