-- ==== Sys2Proof/Certificates/Slice0/Obligations.lean ====
section
/-! DEFINITION. The statements about the block, from the numbered rules of spec/. Numbers are compared as naturals or
integers, so that a result is said in other words than the definitions of the model use. -/

open Sys2Proof Sys2Proof.Machine

/-! ### The command word (30_encoding.md) -/

/-- 30_encoding.md section 1 (opcode map): with `RSV = 0`, each of the sixteen values of `OP` is the command of the opcode map or no command. -/
def Obligations.OpcodeMapDecodes : Prop :=
  decodeTableWord 64 0x1 = some .mul ∧ decodeTableWord 64 0x2 = some .mule ∧ decodeTableWord 64 0x3 = some .mac ∧
  decodeTableWord 64 0x4 = some .macx ∧ decodeTableWord 64 0x5 = some .adc ∧ decodeTableWord 64 0x6 = some .sbb ∧
  decodeTableWord 64 0x7 = some .geq ∧ decodeTableWord 64 0x8 = some .red ∧ decodeTableWord 64 0x0 = none ∧
  decodeTableWord 64 0x9 = none ∧ decodeTableWord 64 0xA = none ∧ decodeTableWord 64 0xB = none ∧
  decodeTableWord 64 0xC = none ∧ decodeTableWord 64 0xD = none ∧ decodeTableWord 64 0xE = none ∧
  decodeTableWord 64 0xF = none

/-- 30_encoding.md section 1 with the byte order of 20_memory.md section 2: the eight little-endian bytes of a command's
word decode to it, and any bytes that decode to it are those eight, so that no word is an alias of another. -/
def Obligations.EncodingRoundTripBothWays : Prop :=
  (∀ i : Instr, decodeBytes (wordBytes (encode i)) = .ok i) ∧
  (∀ (bs : List Byte) (i : Instr), decodeBytes bs = .ok i → bs = wordBytes (encode i))

/-- 30_encoding.md R82: `legal(v) = (v[63:4] = 0) and (1 <= v[3:0] <= 8) and not (v[3:0] = 2 and EDM_OK = 0)`, and no two
legal words stand for one command. -/
def Obligations.LegalityFormula : Prop :=
  (∀ (c : Config) (v : Word),
    legal c v = true ↔
      v.toNat / 16 = 0 ∧ 1 ≤ v.toNat % 16 ∧ v.toNat % 16 ≤ 8 ∧ ¬ (v.toNat % 16 = 2 ∧ c.edmOk = false)) ∧
  (∀ (c : Config) (v w : Word) (i : Instr),
    legal c v = true → legal c w = true → decode v = .ok i → decode w = .ok i → v = w)

/-- 00_scope.md R7 and 43_edmsm_mul.md R192: `EDM_OK` is the bound on `P[3]`; MULE's word is legal exactly then, `CAPS`
reports it in bit 0, and no step changes it. -/
def Obligations.MuleAvailability : Prop :=
  (∀ c : Config, (c.edmOk = true ↔ c.p.l3.toNat ≤ 0x7FFFFFFFFFFFFFFE) ∧
    (legal c 2 = true ↔ c.p.l3.toNat ≤ 0x7FFFFFFFFFFFFFFE)) ∧
  (∀ s : State, readReg .caps s = if s.cfg.p.l3.toNat ≤ 0x7FFFFFFFFFFFFFFE then 1 else 0) ∧
  (∀ s t : State, step s = .next t → t.cfg.edmOk = s.cfg.edmOk) ∧
  Config.reference.edmOk = true ∧ (∀ c : Config, c.p.l3 = 0xFFFFFFFFFFFFFFFF#64 → c.edmOk = false)

/-! ### The limb commands (40_limb_primitives.md) -/

/-- 40_limb_primitives.md R111: MAC writes the two halves of `a + b·c + carry` of `XL[0..3]` and sets FLAG iff the high half is
not 0; nothing else changes but BUSY and DONE. -/
def Obligations.MacResult : Prop :=
  encode .mac = 0x0000000000000003#64 ∧
  (∀ (s : State) (n : Nat), n = s.xl.l0.toNat + s.xl.l1.toNat * s.xl.l2.toNat + s.xl.l3.toNat →
    exec .mac s = .next
      { s with
        z := ⟨BitVec.ofNat 64 (n % 2 ^ 64), BitVec.ofNat 64 (n / 2 ^ 64), 0, 0⟩
        flag := decide (n / 2 ^ 64 ≠ 0)
        busy := false
        done := true })

/-- 40_limb_primitives.md R113: MACX writes the two halves of `a + b·c` of `XL[0..2]` and sets FLAG iff the high half is not 0;
`XL[3]` and `YL` are not read. -/
def Obligations.MacxResult : Prop :=
  encode .macx = 0x0000000000000004#64 ∧
  (∀ (s : State) (n : Nat), n = s.xl.l0.toNat + s.xl.l1.toNat * s.xl.l2.toNat →
    exec .macx s = .next
      { s with
        z := ⟨BitVec.ofNat 64 (n % 2 ^ 64), BitVec.ofNat 64 (n / 2 ^ 64), 0, 0⟩
        flag := decide (n / 2 ^ 64 ≠ 0)
        busy := false
        done := true })

/-- 40_limb_primitives.md R115: ADC writes the two halves of `a + b + carry` of `XL[0..2]` and sets FLAG iff the high half is not
0; `XL[3]` and `YL` are not read. -/
def Obligations.AdcResult : Prop :=
  encode .adc = 0x0000000000000005#64 ∧
  (∀ (s : State) (n : Nat), n = s.xl.l0.toNat + s.xl.l1.toNat + s.xl.l2.toNat →
    exec .adc s = .next
      { s with
        z := ⟨BitVec.ofNat 64 (n % 2 ^ 64), BitVec.ofNat 64 (n / 2 ^ 64), 0, 0⟩
        flag := decide (n / 2 ^ 64 ≠ 0)
        busy := false
        done := true })

/-- What the spec derives in 40_limb_primitives.md sections 1 to 3 (marked there "[derived: ...]"): no 128-bit sum of MAC, MACX or
ADC loses a bit, so that `lo + hi·2^64` is the exact sum; a MACX high half of `2^64 − 1` comes with a low half of 0; an ADC high half
is at most 2, and 2 only for a carry of at least 2. -/
def Obligations.LimbSumsAreExact : Prop :=
  (∀ a b c carry : Word,
    a.toNat + b.toNat * c.toNat + carry.toNat ≤ 2 ^ 128 - 1 ∧
    (mac a b c carry).1.toNat + 2 ^ 64 * (mac a b c carry).2.toNat = a.toNat + b.toNat * c.toNat + carry.toNat) ∧
  (∀ a b c : Word,
    macx a b c = mac a b c 0 ∧ a.toNat + b.toNat * c.toNat ≤ 2 ^ 128 - 2 ^ 64 ∧
    ((macx a b c).2.toNat = 2 ^ 64 - 1 → (macx a b c).1 = 0)) ∧
  (∀ a b carry : Word,
    (adc a b carry).1.toNat + 2 ^ 64 * (adc a b carry).2.toNat = a.toNat + b.toNat + carry.toNat ∧
    (adc a b carry).2.toNat ≤ 2 ∧ ((adc a b carry).2.toNat = 2 → 2 ≤ carry.toNat))

/-- 40_limb_primitives.md R117: SBB writes `d`, the low half of `(2^64 + a − b − borrow) mod 2^128`, and
`borrow_out`, which is 1 iff the high half is 0, into Z and FLAG. -/
def Obligations.SbbResult : Prop :=
  encode .sbb = 0x0000000000000006#64 ∧
  (∀ s : State,
    ∃ n : Nat,
      (n : Int) = ((2 : Int) ^ 64 + s.xl.l0.toNat - s.xl.l1.toNat - s.xl.l2.toNat) % (2 : Int) ^ 128 ∧
      exec .sbb s = .next
        { s with
          z := ⟨BitVec.ofNat 64 (n % 2 ^ 64), if n / 2 ^ 64 = 0 then 1 else 0, 0, 0⟩
          flag := decide (n / 2 ^ 64 = 0)
          busy := false
          done := true })

/-- The closed form the spec derives in 40_limb_primitives.md section 4 (marked there "[derived: from this rule]"), with
`e = a − b − borrow` an integer: `d = e mod 2^64`; the borrow out is 1 exactly when `−2^64 <= e < 0`; for a borrow of 0 or 1 it
is 1 exactly when `a < b + borrow`; for `e < −2^64` it is 0. -/
def Obligations.SbbClosedForm : Prop :=
  ∀ a b borrow : Word,
    ((sbb a b borrow).1.toNat : Int) = ((a.toNat : Int) - b.toNat - borrow.toNat) % (2 : Int) ^ 64 ∧
    ((sbb a b borrow).2 = 0 ∨ (sbb a b borrow).2 = 1) ∧
    ((sbb a b borrow).2 = 1 ↔
      -(2 : Int) ^ 64 ≤ (a.toNat : Int) - b.toNat - borrow.toNat ∧ (a.toNat : Int) - b.toNat - borrow.toNat < 0) ∧
    (borrow.toNat ≤ 1 → ((sbb a b borrow).2 = 1 ↔ a.toNat < b.toNat + borrow.toNat)) ∧
    ((a.toNat : Int) - b.toNat - borrow.toNat < -(2 : Int) ^ 64 → (sbb a b borrow).2 = 0)

/-! ### Comparison and reduction (41_compare_reduce.md) -/

/-- 41_compare_reduce.md R141: GEQ compares the two values as 256-bit unsigned integers and writes 1 or 0 into `Z[0]` and
FLAG; equal values answer 1. -/
def Obligations.GeqResult : Prop :=
  encode .geq = 0x0000000000000007#64 ∧
  (∀ s : State,
    exec .geq s = .next
      { s with
        z := ⟨if s.yl.val ≤ s.xl.val then 1 else 0, 0, 0, 0⟩
        flag := decide (s.yl.val ≤ s.xl.val)
        busy := false
        done := true })

/-- 41_compare_reduce.md R143: RED writes `val(X) − val(P)` with FLAG 1 where `val(X) >= val(P)` (also at or above `2·val(P)`),
and `X` with FLAG 0 elsewhere. -/
def Obligations.RedResult : Prop :=
  encode .red = 0x0000000000000008#64 ∧
  (∀ s : State,
    exec .red s = .next
      { s with
        z := if s.cfg.p.val ≤ s.xl.val then Limbs.ofNat (s.xl.val - s.cfg.p.val) else s.xl
        flag := decide (s.cfg.p.val ≤ s.xl.val)
        busy := false
        done := true })

/-- The facts the spec derives in 41_compare_reduce.md section 2 (marked there "Derived facts"): when the subtraction is taken,
`val(z) = val(a) − val(p)` exactly and the discarded borrow is 0; when it is not, `z = a`; below `2·val(p)` the result is below
`val(p)`. -/
def Obligations.ConditionalSubtractFacts : Prop :=
  ∀ a p : Limbs,
    ((conditionalSubtract a p).2 = true →
      p.val ≤ a.val ∧ (conditionalSubtract a p).1.val + p.val = a.val ∧ (subtractChain a p).2 = 0) ∧
    ((conditionalSubtract a p).2 = false → a.val < p.val ∧ (conditionalSubtract a p).1 = a) ∧
    (a.val < 2 * p.val → (conditionalSubtract a p).1.val < p.val)

/-! ### The multipliers (42_cios_mul.md, 43_edmsm_mul.md) -/

/-- The exactness the spec derives in 42_cios_mul.md R163: for every `a`, `b`, `P` and `INV`, MUL conditionally subtracts `P` from
`limbs(T_4 mod 2^256)`, where `T_{i+1} = floor((T_i + a[i]·val(b) + m_i·val(P)) / 2^64)`.
For two operands at or above `P` the value rests on the spec's step order (D11; log 11). -/
def Obligations.MulIsExactRecurrence : Prop :=
  encode .mul = 0x0000000000000001#64 ∧
  ∀ (s : State) (v : Limbs), v = Limbs.ofNat (s.cfg.montT4 s.xl s.yl) →
    exec .mul s = .next
      { s with
        z := if s.cfg.p.val ≤ v.val then Limbs.ofNat (v.val - s.cfg.p.val) else v
        flag := decide (s.cfg.p.val ≤ v.val)
        busy := false
        done := true }

/-- The exactness the spec derives in 43_edmsm_mul.md R193: for every `a`, `b`, `P` and `INV`, MULE conditionally subtracts `P` from
`limbs(V_4)`, where `V_{i+1} = floor((V_i + val(a)·b[i] + m_i·val(P)) / 2^64) mod 2^256`.
For `X` at or above `P` the value rests on the spec's step order (D11; log 11). -/
def Obligations.MuleIsExactRecurrence : Prop :=
  encode .mule = 0x0000000000000002#64 ∧
  ∀ (s : State) (v : Limbs), v = Limbs.ofNat (s.cfg.edmV4 s.xl s.yl) →
    exec .mule s = .next
      { s with
        z := if s.cfg.p.val ≤ v.val then Limbs.ofNat (v.val - s.cfg.p.val) else v
        flag := decide (s.cfg.p.val ≤ v.val)
        busy := false
        done := true }

/-- The correctness the spec derives in 42_cios_mul.md R163: in a well-formed instance with `INV·P[0] ≡ −1 (mod 2^64)`, where at
least one operand is below `P`, MUL completes with the Montgomery product `val(a)·val(b)·2^(−256) mod val(P)`, below `P`. -/
def Obligations.MulIsMontgomeryProduct : Prop :=
  ∀ s : State, s.cfg.wf = true → s.cfg.InvCorrect → s.cfg.InDomain s.xl ∨ s.cfg.InDomain s.yl →
    ∃ t : State, exec .mul s = .next t ∧ t.z.val < s.cfg.p.val ∧
      2 ^ 256 * t.z.val % s.cfg.p.val = s.xl.val * s.yl.val % s.cfg.p.val ∧
      t = { s with z := t.z, flag := t.flag, busy := false, done := true }

/-- The correctness the spec derives in 43_edmsm_mul.md R193: in a well-formed instance with `INV·P[0] ≡ −1 (mod 2^64)`, MULE
completes with the Montgomery product for `val(a) < val(P)`, whatever `b` is. -/
def Obligations.MuleIsMontgomeryProduct : Prop :=
  ∀ s : State, s.cfg.wf = true → s.cfg.InvCorrect → s.cfg.InDomain s.xl →
    ∃ t : State, exec .mule s = .next t ∧ t.z.val < s.cfg.p.val ∧
      2 ^ 256 * t.z.val % s.cfg.p.val = s.xl.val * s.yl.val % s.cfg.p.val ∧
      t = { s with z := t.z, flag := t.flag, busy := false, done := true }

/-- The equivalence the spec derives in 43_edmsm_mul.md R194 (the source's "bit-identical"): for `val(X) < val(P)` and every `Y`,
MULE and MUL write the same Z and the same FLAG. -/
def Obligations.MuleEqualsMul : Prop :=
  ∀ s : State, s.cfg.wf = true → s.cfg.InvCorrect → s.cfg.InDomain s.xl →
    ∃ t : State, exec .mul s = .next t ∧ exec .mule s = .next t

/-- The symmetry the spec derives in 42_cios_mul.md R163: with `INV·P[0] ≡ −1 (mod 2^64)`, MUL of `(X, Y)` and of `(Y, X)` write the
same Z and the same FLAG, in domain or not. -/
def Obligations.MulCommutes : Prop :=
  ∀ s : State, s.cfg.InvCorrect →
    ∃ t u : State, exec .mul s = .next t ∧ exec .mul { s with xl := s.yl, yl := s.xl } = .next u ∧
      u.z = t.z ∧ u.flag = t.flag

/-- The zero operands the spec derives in 42_cios_mul.md R164 and 43_edmsm_mul.md R191: a zero operand gives 0 with FLAG 0, for
every value of the other operand and every `INV`, in a well-formed instance. -/
def Obligations.ZeroOperandGivesZero : Prop :=
  ∀ (i : Instr) (s : State), i = .mul ∨ i = .mule → s.cfg.wf = true → s.xl = Limbs.zero ∨ s.yl = Limbs.zero →
    exec i s = .next { s with z := Limbs.zero, flag := false, busy := false, done := true }

/-- The conversions the spec derives in 70_reset_and_hazards.md R243, duty 2: with correct constants, MUL with `Y = R2` converts
into Montgomery form, with `Y = [1, 0, 0, 0]` out of it, with `Y = R1` returns `X`, and `R2·R2` is `R3`. -/
def Obligations.MontgomeryConversions : Prop :=
  ∀ s : State, s.cfg.wf = true → s.cfg.ConstantsCorrect → s.cfg.InDomain s.xl →
    (s.yl = s.cfg.r2 → ∃ t, exec .mul s = .next t ∧ t.z = Limbs.ofNat (2 ^ 256 * s.xl.val % s.cfg.p.val)) ∧
    (s.yl = ⟨1, 0, 0, 0⟩ → ∃ t, exec .mul s = .next t ∧ t.z.val < s.cfg.p.val ∧
      2 ^ 256 * t.z.val % s.cfg.p.val = s.xl.val) ∧
    (s.yl = s.cfg.r1 → ∃ t, exec .mul s = .next t ∧ t.z = s.xl) ∧
    (s.xl = s.cfg.r2 → s.yl = s.cfg.r2 → ∃ t, exec .mul s = .next t ∧ t.z = s.cfg.r3)

/-- The example the spec derives in 43_edmsm_mul.md R195: out of domain the two multipliers differ. In the reference configuration,
`X = Y = 2^256 − 1`; a claim about these values rests on the spec's step order (D11; log 11). -/
def Obligations.MuleDiffersOutOfDomain : Prop :=
  ∀ s : State, s.cfg = Config.reference → s.xl = Limbs.ofNat (2 ^ 256 - 1) → s.yl = Limbs.ofNat (2 ^ 256 - 1) →
    (∃ t, exec .mul s = .next t ∧ t.flag = false ∧
      t.z.val = 0x15ebf95182c5551cc8260de4aeb85d5d090ef5a9e111ec87dc5ba0056db1194c) ∧
    (∃ t, exec .mule s = .next t ∧ t.flag = false ∧
      t.z.val = 0x15ebf95182c5551bc8260de4aeb85d5c090ef5a9e111ec86dc5ba0056db1194c)

/-! ### What holds of every command -/

/-- 30_encoding.md section 3 (the completion event): each command's run writes Z, FLAG, BUSY = 0 and DONE = 1 and nothing else; every
byte of the window outside Z and STATUS reads as before. -/
def Obligations.CommandFrame : Prop :=
  ∀ (i : Instr) (s : State),
    ∃ t : State, exec i s = .next t ∧ t = { s with z := t.z, flag := t.flag, busy := false, done := true } ∧
      ∀ a : Nat, ¬ (0x040 ≤ a ∧ a < 0x060) → ¬ (0x068 ≤ a ∧ a < 0x070) → windowByte t a = windowByte s a

/-- 30_encoding.md sections 2 and 3, 10_state.md section 2 (constant bank): `F` is a pure function of the constants and the operands
the command reads. Two states that agree on them get the same Z and FLAG. The scalar commands and GEQ read no constant, RED no
`INV`, and no command `R1`, `R2`, `R3`, `BASE` or `LAT`; the scalar commands and RED read no `YL`, and MACX, ADC, SBB no `XL[3]`. -/
def Obligations.ResultDependsOnOperandsOnly : Prop :=
  ∀ (i : Instr) (s s' : State),
    (i = .mac ∨ i = .macx ∨ i = .adc ∨ i = .sbb ∨ i = .geq ∨ s.cfg.p = s'.cfg.p) →
    (i = .mac ∨ i = .macx ∨ i = .adc ∨ i = .sbb ∨ i = .geq ∨ i = .red ∨ s.cfg.inv = s'.cfg.inv) →
    s.xl.l0 = s'.xl.l0 → s.xl.l1 = s'.xl.l1 → s.xl.l2 = s'.xl.l2 →
    (i = .macx ∨ i = .adc ∨ i = .sbb ∨ s.xl.l3 = s'.xl.l3) →
    (i = .mac ∨ i = .macx ∨ i = .adc ∨ i = .sbb ∨ i = .red ∨ s.yl = s'.yl) →
    ∃ t t' : State, exec i s = .next t ∧ exec i s' = .next t' ∧ t.z = t'.z ∧ t.flag = t'.flag

/-- 30_encoding.md section 2 (result layout) and 10_state.md section 3 (flag): the scalar commands write 0 into `Z[2]`, `Z[3]`;
FLAG of MAC, MACX, ADC is 1 iff `Z[1]` is nonzero, of SBB iff `Z[1]` is 1, which is 0 or 1; GEQ writes `[FLAG, 0, 0, 0]`. -/
def Obligations.ResultLayoutAndFlag : Prop :=
  ∀ (i : Instr) (s : State),
    ∃ t : State, exec i s = .next t ∧
      (i = .mac ∨ i = .macx ∨ i = .adc →
        t.z.l2 = 0 ∧ t.z.l3 = 0 ∧ (t.flag = true ↔ t.z.l1 ≠ 0)) ∧
      (i = .sbb → t.z.l2 = 0 ∧ t.z.l3 = 0 ∧ t.z.l1.toNat ≤ 1 ∧ (t.flag = true ↔ t.z.l1 = 1)) ∧
      (i = .geq → t.z.l1 = 0 ∧ t.z.l2 = 0 ∧ t.z.l3 = 0 ∧ t.z.l0.toNat = t.flag.toNat)

/-! ### The register window (20_memory.md, 10_state.md) -/

/-- 20_memory.md R53: a read at each register's offset of the map answers its value and changes nothing else; CMD reads 0; a read at
a reserved offset is an error; a second read of the same register answers the same. -/
def Obligations.WindowReads : Prop :=
  ∀ s : State,
    (∀ k : Fin 4,
      hostAccess (.read (s.cfg.base + (0x000 + 8 * k.val)) 8) s = { s with resp := .data (s.x.get k) } ∧
      hostAccess (.read (s.cfg.base + (0x020 + 8 * k.val)) 8) s = { s with resp := .data (s.y.get k) } ∧
      hostAccess (.read (s.cfg.base + (0x040 + 8 * k.val)) 8) s = { s with resp := .data (s.z.get k) } ∧
      hostAccess (.read (s.cfg.base + (0x080 + 8 * k.val)) 8) s = { s with resp := .data (s.cfg.p.get k) } ∧
      hostAccess (.read (s.cfg.base + (0x0C0 + 8 * k.val)) 8) s = { s with resp := .data (s.cfg.r1.get k) } ∧
      hostAccess (.read (s.cfg.base + (0x0E0 + 8 * k.val)) 8) s = { s with resp := .data (s.cfg.r2.get k) } ∧
      hostAccess (.read (s.cfg.base + (0x100 + 8 * k.val)) 8) s = { s with resp := .data (s.cfg.r3.get k) }) ∧
    hostAccess (.read (s.cfg.base + 0x060) 8) s = { s with resp := .data 0 } ∧
    hostAccess (.read (s.cfg.base + 0x068) 8) s = { s with resp := .data (statusWord s) } ∧
    hostAccess (.read (s.cfg.base + 0x070) 8) s = { s with resp := .data (if s.cfg.edmOk then 1 else 0) } ∧
    hostAccess (.read (s.cfg.base + 0x0A0) 8) s = { s with resp := .data s.cfg.inv } ∧
    (∀ off : Nat, off < 0x200 → off % 8 = 0 → off = 0x078 ∨ (0x0A8 ≤ off ∧ off ≤ 0x0B8) ∨ 0x120 ≤ off →
      hostAccess (.read (s.cfg.base + off) 8) s = { s with resp := .error }) ∧
    (∀ addr : Nat, hostAccess (.read addr 8) (hostAccess (.read addr 8) s) = hostAccess (.read addr 8) s)

/-- 20_memory.md section 2 (host write): a write to X or Y stores the limb at any time, also while busy; a write to CMD is a command
write and one to STATUS a write-one-to-clear; a write to a read-only register or at a reserved offset is an error and changes nothing.
That a write that is performed is answered with `ok` is the model's choice (log 6, DEDUCED). -/
def Obligations.WindowWrites : Prop :=
  ∀ (s : State) (v : Word),
    (∀ k : Fin 4,
      hostAccess (.write (s.cfg.base + (0x000 + 8 * k.val)) 8 v) s = { s with x := s.x.set k v, resp := .ok } ∧
      hostAccess (.write (s.cfg.base + (0x020 + 8 * k.val)) 8 v) s = { s with y := s.y.set k v, resp := .ok }) ∧
    hostAccess (.write (s.cfg.base + 0x060) 8 v) s = { commandWrite v s with resp := .ok } ∧
    hostAccess (.write (s.cfg.base + 0x068) 8 v) s =
      { s with
        done := if v.getLsbD 1 then false else s.done
        ill  := if v.getLsbD 3 then false else s.ill
        drop := if v.getLsbD 4 then false else s.drop
        resp := .ok } ∧
    (∀ off : Nat, off < 0x200 → off % 8 = 0 →
      (0x040 ≤ off ∧ off ≤ 0x058) ∨ (0x070 ≤ off ∧ off ≤ 0x0B8) ∨ 0x0C0 ≤ off →
      hostAccess (.write (s.cfg.base + off) 8 v) s = { s with resp := .error })

/-- 10_state.md section 2 (STATUS): it reads `DROP·2^4 + ILL·2^3 + FLAG·2^2 + DONE·2 + BUSY`, bits 63:5 read 0; a write of `v` to it clears
DONE, ILL, DROP where bits 1, 3, 4 of `v` are 1, ignores the other bits and is never an error. That it is answered with `ok` is the model's choice (log 6, DEDUCED). -/
def Obligations.StatusRegister : Prop :=
  (∀ (s : State) (k : Nat), (readReg .status s).getLsbD k =
    if k = 0 then s.busy else if k = 1 then s.done else if k = 2 then s.flag else if k = 3 then s.ill
    else if k = 4 then s.drop else false) ∧
  (∀ (s : State) (v : Word), ∃ t : State,
    hostAccess (.write (s.cfg.base + 0x068) 8 v) s = t ∧ t.resp = .ok ∧
      t = { s with done := t.done, ill := t.ill, drop := t.drop, resp := .ok } ∧
      (t.done = true ↔ s.done = true ∧ v.toNat / 2 % 2 = 0) ∧
      (t.ill = true ↔ s.ill = true ∧ v.toNat / 8 % 2 = 0) ∧
      (t.drop = true ↔ s.drop = true ∧ v.toNat / 16 % 2 = 0))

/-- 60_exceptions.md R214: an access of the window is answered with an error, performs nothing and changes no state, when its width
is not 8, its offset is misaligned or reserved, it writes a read-only register, or `rst` is asserted; and outside reset only then. -/
def Obligations.BusErrorExactly : Prop :=
  (∀ (s : State) (a : Access), inWindow s.cfg a →
    ((hostAccess a s).resp = .error ↔ busErrorCondition s.cfg a) ∧
    (busErrorCondition s.cfg a → hostAccess a s = { s with resp := .error })) ∧
  (∀ (s : State) (a : Access), inWindow s.cfg a →
    clockEdge { rst := true, access := some a } s = .next { State.resetIn s.cfg with inputs := s.inputs, resp := .error })

/-- 20_memory.md R55: byte `k` of a register is its bits `[8k+7 : 8k]`, and a 256-bit value occupies its 32 bytes in little-endian
order, byte `j` being `n[8j+7 : 8j]`, in the groups X, Y, Z, P, R1, R2 and R3. No access sees part of a register. -/
def Obligations.WindowIsLittleEndian : Prop :=
  ∀ s : State,
    (∀ (a : Access) (v : Word), (hostAccess a s).resp = .data v → accessWidth a = 8 ∧ ∃ r : Reg, v = readReg r s) ∧
    (∀ (r : Reg) (k : Nat), k < 8 →
      windowByte s (regOffset r + k) = some (BitVec.ofNat 8 ((readReg r s).toNat / 2 ^ (8 * k)))) ∧
    (∀ j : Nat, j < 32 →
      windowByte s (0x000 + j) = some (BitVec.ofNat 8 (s.x.val / 2 ^ (8 * j))) ∧
      windowByte s (0x020 + j) = some (BitVec.ofNat 8 (s.y.val / 2 ^ (8 * j))) ∧
      windowByte s (0x040 + j) = some (BitVec.ofNat 8 (s.z.val / 2 ^ (8 * j))) ∧
      windowByte s (0x080 + j) = some (BitVec.ofNat 8 (s.cfg.p.val / 2 ^ (8 * j))) ∧
      windowByte s (0x0C0 + j) = some (BitVec.ofNat 8 (s.cfg.r1.val / 2 ^ (8 * j))) ∧
      windowByte s (0x0E0 + j) = some (BitVec.ofNat 8 (s.cfg.r2.val / 2 ^ (8 * j))) ∧
      windowByte s (0x100 + j) = some (BitVec.ofNat 8 (s.cfg.r3.val / 2 ^ (8 * j))))

/-- The model's choice (log 7): an access whose first byte is outside the window changes nothing of the block and gets no answer
from it. 20_memory.md section 1 leaves what lies outside to the platform. -/
def Obligations.OutsideWindowIsIgnored : Prop :=
  ∀ (s : State) (a : Access), ¬ inWindow s.cfg a → hostAccess a s = { s with resp := .none }

/-! ### A command's life (30_encoding.md, 60_exceptions.md) -/

/-- 30_encoding.md section 3 (command write), 60_exceptions.md section 1: a host write of `v` to CMD while busy sets DROP only, whatever `v` is; while idle, an
illegal word sets ILL and DONE only; a legal one clears DONE, latches X, Y, `v[3:0]` and `LAT(v[3:0])` and sets BUSY, and changes
nothing else. That each is answered with `ok`, also a dropped and an illegal one, is the model's choice (log 6, DEDUCED). -/
def Obligations.CommandWriteOutcomes : Prop :=
  ∀ (s : State) (v : Word),
    (s.busy = true →
      hostAccess (.write (s.cfg.base + 0x060) 8 v) s = { s with drop := true, resp := .ok }) ∧
    (s.busy = false → legal s.cfg v = false →
      hostAccess (.write (s.cfg.base + 0x060) 8 v) s = { s with done := true, ill := true, resp := .ok }) ∧
    (s.busy = false → legal s.cfg v = true →
      ∃ i : Instr, decode v = .ok i ∧
        hostAccess (.write (s.cfg.base + 0x060) 8 v) s =
          { s with
            done := false
            xl   := s.x
            yl   := s.y
            opl  := v.extractLsb' 0 4
            cnt  := s.cfg.latOf i
            busy := true
            resp := .ok })

/-- The step runs the decoded command (30_encoding.md section 3): at an edge without reset, with one cycle left and `OPL` zero-extended
to a word that decodes to `i`, `step` is `exec` of `i` on the state with the edge taken and `CNT` at 0, then the edge's host access. -/
def Obligations.StepRunsDecodedCommand : Prop :=
  ∀ (s t : State) (i : Instr) (acc : Option Access) (rest : List Edge),
    s.cfg.wf = true → s.inputs = { rst := false, access := acc } :: rest → s.busy = true → s.cnt = 1 →
    decode (s.opl.setWidth 64) = .ok i → exec i { s with cnt := 0, inputs := rest } = .next t →
    step s = .next (hostPart acc t)

/-- A placed command word is run by the next step (the model's own entry, log 8): for a command the instance has, `step` of
`withFetchWord` is the command's run on the operands X and Y. -/
def Obligations.PlacedCommandRuns : Prop :=
  ∀ (s : State) (i : Instr), s.cfg.wf = true → i.wf s.cfg = true →
    ∃ t : State, step (s.withFetchWord 64 (encode i).toNat) = .next t ∧
      exec i { s with xl := s.x, yl := s.y, opl := i.opcode, cnt := 0, resp := .none } = .next t

/-- 30_encoding.md section 3 (completion): an edge without reset that is not the last of a command only counts CNT down, and an edge
while idle leaves the engine alone; the host's access follows. -/
def Obligations.EngineCountsDown : Prop :=
  ∀ (s : State) (acc : Option Access) (rest : List Edge),
    s.cfg.wf = true → s.inputs = { rst := false, access := acc } :: rest →
    (s.busy = false → step s = .next (hostPart acc { s with inputs := rest })) ∧
    (∀ n : Nat, s.busy = true → s.cnt = n + 2 →
      step s = .next (hostPart acc { s with cnt := n + 1, inputs := rest }))

/-- 30_encoding.md section 3 (completion) and 70_reset_and_hazards.md section 4 (latency): a legal command written while idle completes exactly `LAT(op)` edges after the
edge that accepted it, whatever the host's accesses at those edges are, if no reset intervenes. Until then BUSY is 1, DONE is 0, Z and
FLAG are the previous ones; at that edge Z and FLAG become `F` of the command and of X and Y at acceptance. -/
def Obligations.CompletesExactlyLatEdgesLater : Prop :=
  ∀ (s : State) (i : Instr) (accs : List (Option Access)) (rest : List Edge),
    s.cfg.wf = true → i.wf s.cfg = true → s.busy = false → accs.length = s.cfg.latOf i →
    s.inputs = cmdWriteEdge s.cfg (encode i) :: (accs.map (fun a => { rst := false, access := a }) ++ rest) →
    (∀ n : Nat, n < s.cfg.latOf i →
      ∃ t : State, Host.Core.run Sys2Proof.core (n + 1) s = .next t ∧ t.busy = true ∧ t.done = false ∧
        t.z = s.z ∧ t.flag = s.flag ∧ t.cnt + n = s.cfg.latOf i) ∧
    (∃ t : State, Host.Core.run Sys2Proof.core (s.cfg.latOf i + 1) s = .next t ∧
      t.z = (commandResult s.cfg i s.x s.y).1 ∧ t.flag = (commandResult s.cfg i s.x s.y).2 ∧
      (accs.getLast? = some none → t.busy = false ∧ t.done = true ∧ t.cnt = 0))

/-- 70_reset_and_hazards.md R248: where a completion and a host access fall on one edge, the completion comes first. A read of STATUS
answers BUSY = 0, DONE = 1 and the new FLAG, a read of Z the new result; a write to CMD is accepted or illegal, never dropped; a write
to STATUS with bit 1 set leaves DONE 0; a reset takes precedence and the completion does not happen. -/
def Obligations.CompletionComesBeforeAccess : Prop :=
  ∀ (s : State) (i : Instr) (rest : List Edge) (v : Word),
    s.cfg.wf = true → s.busy = true → s.cnt = 1 → s.opl = i.opcode →
    (∃ (t : State) (w : Word),
      step { s with inputs := { rst := false, access := some (.read (s.cfg.base + 0x068) 8) } :: rest } = .next t ∧
      t.resp = .data w ∧ w.getLsbD 0 = false ∧ w.getLsbD 1 = true ∧
      w.getLsbD 2 = (commandResult s.cfg i s.xl s.yl).2) ∧
    (∀ k : Fin 4, ∃ t : State,
      step { s with inputs := { rst := false, access := some (.read (s.cfg.base + (0x040 + 8 * k.val)) 8) } :: rest } = .next t ∧
      t.resp = .data ((commandResult s.cfg i s.xl s.yl).1.get k)) ∧
    (∃ t : State, step { s with inputs := cmdWriteEdge s.cfg v :: rest } = .next t ∧ t.drop = s.drop ∧
      t.z = (commandResult s.cfg i s.xl s.yl).1 ∧
      (legal s.cfg v = true → t.busy = true ∧ t.xl = s.x ∧ t.yl = s.y ∧ t.opl = v.extractLsb' 0 4) ∧
      (legal s.cfg v = false → t.busy = false ∧ t.ill = true)) ∧
    (∃ t : State,
      step { s with inputs := { rst := false, access := some (.write (s.cfg.base + 0x068) 8 v) } :: rest } = .next t ∧
      t.busy = false ∧ t.z = (commandResult s.cfg i s.xl s.yl).1 ∧ t.done = !v.getLsbD 1) ∧
    (∀ acc : Option Access, ∃ t : State, step { s with inputs := { rst := true, access := acc } :: rest } = .next t ∧
      t.z = Limbs.zero ∧ t.flag = false ∧ t.busy = false ∧ t.done = false)

/-! ### Reset and configuration (70_reset_and_hazards.md, 00_scope.md) -/

/-- 70_reset_and_hazards.md R240, R241: an edge with `rst = 1` sets every element of the block's state to 0, whatever it was, keeps the
constants, completes nothing, and answers an access of the window with an error. -/
def Obligations.ResetEdgeClearsEverything : Prop :=
  ∀ (s : State) (acc : Option Access) (rest : List Edge),
    s.cfg.wf = true → s.inputs = { rst := true, access := acc } :: rest →
    ∃ r : Response,
      (∀ a : Access, acc = some a → inWindow s.cfg a → r = .error) ∧
      step s = .next
        { cfg := s.cfg, x := ⟨0, 0, 0, 0⟩, y := ⟨0, 0, 0, 0⟩, z := ⟨0, 0, 0, 0⟩, busy := false, done := false,
          flag := false, ill := false, drop := false, xl := ⟨0, 0, 0, 0⟩, yl := ⟨0, 0, 0, 0⟩, opl := 0, cnt := 0,
          inputs := rest, resp := r }

/-- 10_state.md R33: every element of the state has the reset value 0, in every instance; the constants are not reset and hold their
elaboration values at all times. -/
def Obligations.ResetValuesAreZero : Prop :=
  (∀ s t : State, step s = .next t → t.cfg = s.cfg) ∧
  ∀ c : Config,
    (State.resetIn c).x = ⟨0, 0, 0, 0⟩ ∧ (State.resetIn c).y = ⟨0, 0, 0, 0⟩ ∧ (State.resetIn c).z = ⟨0, 0, 0, 0⟩ ∧
    (State.resetIn c).busy = false ∧ (State.resetIn c).done = false ∧ (State.resetIn c).flag = false ∧
    (State.resetIn c).ill = false ∧ (State.resetIn c).drop = false ∧ (State.resetIn c).xl = ⟨0, 0, 0, 0⟩ ∧
    (State.resetIn c).yl = ⟨0, 0, 0, 0⟩ ∧ (State.resetIn c).opl = 0 ∧ (State.resetIn c).cnt = 0 ∧
    (State.resetIn c).cfg = c ∧ State.reset = State.resetIn State.reset.cfg

/-- 00_scope.md R6: an instance with legal open parameters is refused exactly when its `P` is even, below 3 or at least `2^255`;
nothing else of it (primality, `INV`, `R1`, `R2`, `R3`) is checked. -/
def Obligations.IllFormedModulusRefused : Prop :=
  ∀ s : State, (∀ i : Instr, 1 ≤ s.cfg.latOf i) → s.cfg.base % 0x200 = 0 →
    (step s = .refused .configurationRefused ↔
      ¬ (s.cfg.p.val % 2 = 1 ∧ 3 ≤ s.cfg.p.val ∧ s.cfg.p.val < 2 ^ 255))

/-- The model's choice (log 10) for the constraints of 00_scope.md section 3 on the open parameters: a latency of 0 or a `BASE` that is
no multiple of 0x200 is refused as well. -/
def Obligations.IllegalOpenParametersRefused : Prop :=
  ∀ s : State, ((∃ i : Instr, s.cfg.latOf i = 0) ∨ s.cfg.base % 0x200 ≠ 0) →
    step s = .refused .configurationRefused

/-- 00_scope.md section 3, 10_state.md section 2 (CAPS, constant bank): no step changes a constant, so CAPS and every register of the constant bank read the same
before and after it, reset included. -/
def Obligations.ConstantsNeverChange : Prop :=
  ∀ s t : State, step s = .next t →
    t.cfg = s.cfg ∧ readReg .caps t = readReg .caps s ∧ readReg .inv t = readReg .inv s ∧
    ∀ k : Fin 4, readReg (.p k) t = readReg (.p k) s ∧ readReg (.r1 k) t = readReg (.r1 k) s ∧
      readReg (.r2 k) t = readReg (.r2 k) s ∧ readReg (.r3 k) t = readReg (.r3 k) s

/-! ### Invariants and rules of the whole machine -/

/-- The invariant holds after reset in every well-formed instance, and at `State.reset` (whose configuration is the model's choice,
log 2, log 3, log 4). -/
def Obligations.InvariantAtReset : Prop :=
  State.reset.Inv ∧ ∀ c : Config, c.wf = true → (State.resetIn c).Inv

/-- Every step keeps the invariant: a busy engine holds a command the instance has, with 1 to `LAT` cycles left and DONE 0; an idle one
has none left (10_state.md section 5, 30_encoding.md section 3). -/
def Obligations.StepKeepsInvariant : Prop :=
  ∀ s t : State, s.Inv → step s = .next t → t.Inv

/-- 60_exceptions.md section 1 ("No command faults, hangs or leaves the engine stuck") and 70_reset_and_hazards.md section 1: from every
state of the invariant every edge answers a next state, whatever is presented. -/
def Obligations.EveryEdgeAnswers : Prop :=
  ∀ (s : State) (e : Edge), s.Inv → ∃ t : State, step { s with inputs := e :: s.inputs } = .next t

/-- 10_state.md sections 2 and 3 (Z, FLAG): only the completion of a command and a reset change Z or FLAG, and a completion writes both from one
command; illegal and dropped commands leave them unchanged. -/
def Obligations.ResultChangesOnlyAtCompletion : Prop :=
  ∀ s t : State, step s = .next t →
    (t.z = s.z ∧ t.flag = s.flag) ∨
    ((nextEdge s).rst = true ∧ t.z = Limbs.zero ∧ t.flag = false) ∨
    ((nextEdge s).rst = false ∧ s.busy = true ∧ s.cnt = 1 ∧
      ∃ i : Instr, s.opl = i.opcode ∧ (t.z, t.flag) = commandResult s.cfg i s.xl s.yl)

/-- 20_memory.md section 2 (atomicity), 10_state.md sections 2 and 3 (Z, FLAG): whenever the engine is idle, Z and FLAG are together
the result of the command in OPL on XL, YL, or all of OPL, Z and FLAG are at reset. So no mixture of two results stands in them, and
no illegal or dropped command shows in them. While busy they are unchanged (`ResultChangesOnlyAtCompletion`). -/
def Obligations.StepKeepsOneResult : Prop :=
  ∀ s t : State, s.Inv → s.OneResult → step s = .next t → t.OneResult

/-- The base case of `StepKeepsOneResult`: the state after reset meets `State.OneResult`, in every instance. `ResetValuesAreZero`
states the values. -/
def Obligations.OneResultAtReset : Prop := ∀ c : Config, (State.resetIn c).OneResult

/-- 10_state.md section 2 (X, Y): the engine never writes X or Y; only a host write to one of their limbs, which stores that limb, and reset
change them. -/
def Obligations.OperandsChangeOnlyByHostWrite : Prop :=
  ∀ s t : State, step s = .next t →
    (t.x = s.x ∨ ((nextEdge s).rst = true ∧ t.x = Limbs.zero) ∨
      ∃ (k : Fin 4) (v : Word),
        (nextEdge s).access = some (.write (s.cfg.base + (0x000 + 8 * k.val)) 8 v) ∧ t.x = s.x.set k v) ∧
    (t.y = s.y ∨ ((nextEdge s).rst = true ∧ t.y = Limbs.zero) ∨
      ∃ (k : Fin 4) (v : Word),
        (nextEdge s).access = some (.write (s.cfg.base + (0x020 + 8 * k.val)) 8 v) ∧ t.y = s.y.set k v)

/-- 10_state.md section 5: the latched copies and OPL change only at an acceptance, which copies X, Y and the opcode of the legal word
written, and at reset; so no access while busy reaches the command in flight. -/
def Obligations.LatchesChangeOnlyAtAcceptance : Prop :=
  ∀ s t : State, step s = .next t →
    (t.xl = s.xl ∧ t.yl = s.yl ∧ t.opl = s.opl) ∨
    ((nextEdge s).rst = true ∧ t.xl = Limbs.zero ∧ t.yl = Limbs.zero ∧ t.opl = 0) ∨
    ∃ v : Word, (nextEdge s).access = some (.write (s.cfg.base + 0x060) 8 v) ∧ legal s.cfg v = true ∧
      (s.busy = false ∨ s.cnt = 1) ∧ t.xl = s.x ∧ t.yl = s.y ∧ t.opl = v.extractLsb' 0 4 ∧ t.busy = true

/-- 60_exceptions.md section 3: ILL and DROP are sticky. They stay 1 until the host writes 1 to their bit of STATUS, or a reset. -/
def Obligations.ErrorBitsAreSticky : Prop :=
  ∀ s t : State, step s = .next t →
    (s.ill = true → t.ill = true ∨ (nextEdge s).rst = true ∨
      ∃ v : Word, (nextEdge s).access = some (.write (s.cfg.base + 0x068) 8 v) ∧ v.getLsbD 3 = true) ∧
    (s.drop = true → t.drop = true ∨ (nextEdge s).rst = true ∨
      ∃ v : Word, (nextEdge s).access = some (.write (s.cfg.base + 0x068) 8 v) ∧ v.getLsbD 4 = true)

/-- 60_exceptions.md section 2 (priority): an access of an edge reports at most one condition, the first that applies. Under reset it
is a bus error. Outside reset a bus error is reported in neither ILL nor DROP, whatever they are, and no other answer with an error
exists. A CMD write while busy is Dropped, never Illegal and no bus error, whatever the word is; one of an illegal word while idle is
Illegal, never Dropped and no bus error; and nothing else raises ILL or DROP. -/
def Obligations.OneConditionPerAccess : Prop :=
  ∀ (s : State) (a : Access), inWindow s.cfg a →
    (∃ t : State, clockEdge { rst := true, access := some a } s = .next t ∧ t.resp = .error ∧ t.ill = false ∧ t.drop = false) ∧
    ((hostAccess a s).resp = .error → (hostAccess a s).ill = s.ill ∧ (hostAccess a s).drop = s.drop) ∧
    (busErrorCondition s.cfg a → (hostAccess a s).resp = .error) ∧
    (∀ v : Word, a = .write (s.cfg.base + 0x060) 8 v → s.busy = true →
      (hostAccess a s).drop = true ∧ (hostAccess a s).ill = s.ill ∧ (hostAccess a s).resp ≠ .error) ∧
    (∀ v : Word, a = .write (s.cfg.base + 0x060) 8 v → s.busy = false → legal s.cfg v = false →
      (hostAccess a s).ill = true ∧ (hostAccess a s).drop = s.drop ∧ (hostAccess a s).resp ≠ .error) ∧
    (s.ill = false → (hostAccess a s).ill = true →
      s.busy = false ∧ ∃ v : Word, a = .write (s.cfg.base + 0x060) 8 v ∧ legal s.cfg v = false) ∧
    (s.drop = false → (hostAccess a s).drop = true →
      s.busy = true ∧ ∃ v : Word, a = .write (s.cfg.base + 0x060) 8 v)

/-- 20_memory.md section 3 (consistency model): the block is a single sequence of atomic events. From a state of the invariant each clock edge is, with time
forgotten, a Reset where `rst = 1`, and else at most one Complete (only where a command is in flight) followed by at most the edge's host access. -/
def Obligations.StepRefinesUntimedEvents : Prop :=
  ∀ s t : State, s.Inv → step s = .next t →
    ∃ es : List Event, applyEvents es (forgetTime s) = some (forgetTime t) ∧
      (((nextEdge s).rst = true ∧ es = [.reset]) ∨
        ((nextEdge s).rst = false ∧
          ∃ done : List Event, (done = [] ∨ (done = [.complete] ∧ s.busy = true)) ∧
            es = done ++ ((nextEdge s).access.toList.map Event.access)))

/-! ### Host notation (30_encoding.md section 5) -/

/-- 30_encoding.md R90: each pseudo-instruction expands to the statements of the table, in order; limb `k` of a 256-bit literal is its
bits `[64k+63 : 64k]`, and of a 4-limb variable its limb `k`. -/
def Obligations.PseudoInstructionExpansions : Prop :=
  (∀ n : WideValue, expand (.ldx n) =
    [.wr 0x000 (wideLimb n 0), .wr 0x008 (wideLimb n 1), .wr 0x010 (wideLimb n 2), .wr 0x018 (wideLimb n 3)]) ∧
  (∀ n : WideValue, expand (.ldy n) =
    [.wr 0x020 (wideLimb n 0), .wr 0x028 (wideLimb n 1), .wr 0x030 (wideLimb n 2), .wr 0x038 (wideLimb n 3)]) ∧
  (∀ a b c d : HostValue, expand (.lds a b c d) = [.wr 0x000 a, .wr 0x008 b, .wr 0x010 c, .wr 0x018 d]) ∧
  (∀ v : HostValue, expand (.go v) = [.wr 0x060 v]) ∧
  (∀ i : Instr, expand (.goCmd i) = [.wr 0x060 (.imm (encode i))]) ∧
  expand .wait = [.poll 0x068 0x1 0x0] ∧
  (∀ z : Nat, expand (.rdz z) =
    [.rd 0x040 (some ⟨z, 0⟩), .rd 0x048 (some ⟨z, 1⟩), .rd 0x050 (some ⟨z, 2⟩), .rd 0x058 (some ⟨z, 3⟩)]) ∧
  expand .clr = [.wr 0x068 (.imm 0x1A)] ∧
  (∀ (a b : WideValue) (z : Nat), expand (.mmul a b z) =
    expand (.ldx a) ++ expand (.ldy b) ++ expand (.goCmd .mul) ++ expand .wait ++ expand (.rdz z)) ∧
  (∀ (n : BitVec 256) (k : Fin 4), wideLimb (.lit n) k = .imm (BitVec.ofNat 64 (n.toNat / 2 ^ (64 * k.val)))) ∧
  (∀ (name : Nat) (k : Fin 4), wideLimb (.var name) k = .var ⟨name, k⟩)
end

