-- ==== Sys2Proof/Laws/Words.lean ====
section
/-! SUPPORT. Limb vectors and their values, bytes of a word. -/

namespace Sys2Proof

theorem Limbs.ext_val {a b : Limbs} (h : a.val = b.val) : a = b := by
  obtain ⟨a0, a1, a2, a3⟩ := a
  obtain ⟨b0, b1, b2, b3⟩ := b
  simp only [Limbs.val] at h
  simp only [Limbs.mk.injEq]
  refine ⟨BitVec.eq_of_toNat_eq ?_, BitVec.eq_of_toNat_eq ?_, BitVec.eq_of_toNat_eq ?_, BitVec.eq_of_toNat_eq ?_⟩ <;> omega

theorem Limbs.val_lt (v : Limbs) : v.val < 2 ^ 256 := by
  simp only [Limbs.val]
  omega

theorem Limbs.val_ofNat (n : Nat) : (Limbs.ofNat n).val = n % 2 ^ 256 := by
  simp only [Limbs.val, Limbs.ofNat, BitVec.toNat_ofNat]
  omega

theorem Limbs.ofNat_val (v : Limbs) : Limbs.ofNat v.val = v :=
  Limbs.ext_val (by rw [Limbs.val_ofNat, Nat.mod_eq_of_lt v.val_lt])

@[simp] theorem Limbs.val_zero : Limbs.zero.val = 0 := by decide

@[simp] theorem Limbs.get_set_same (v : Limbs) (k : Fin 4) (w : Word) : (v.set k w).get k = w := by
  match k with
  | 0 => rfl
  | 1 => rfl
  | 2 => rfl
  | 3 => rfl

theorem Limbs.get_set_other (v : Limbs) (j k : Fin 4) (w : Word) (h : j ≠ k) : (v.set k w).get j = v.get j := by
  match j, k with
  | 0, 0 | 1, 1 | 2, 2 | 3, 3 => exact absurd rfl h
  | 0, 1 | 0, 2 | 0, 3 | 1, 0 | 1, 2 | 1, 3 | 2, 0 | 2, 1 | 2, 3 | 3, 0 | 3, 1 | 3, 2 => rfl

/-- Limb `k` carries the bits of weight `2^(64k)` of the value (00_scope.md R11). -/
theorem Limbs.get_toNat (v : Limbs) (k : Fin 4) : (v.get k).toNat = v.val / 2 ^ (64 * k.val) % 2 ^ 64 := by
  match k with
  | 0 => simp [Limbs.get, Limbs.val]; omega
  | 1 => simp [Limbs.get, Limbs.val]; omega
  | 2 => simp [Limbs.get, Limbs.val]; omega
  | 3 => simp [Limbs.get, Limbs.val]; omega

theorem wordOfBytes_wordBytes (v : Word) : wordOfBytes (wordBytes v) = v := by
  apply BitVec.eq_of_getLsbD_eq
  intro i hi
  simp only [wordBytes, List.range, List.range.loop, List.map, wordOfBytes, byteOfWord]
  interval_cases i <;> simp

@[simp] theorem decodeOp_opcode (i : Instr) : decodeOp i.opcode = .ok i := by
  cases i <;> rfl

/-- The opcode map read backwards: an `OP` that decodes is its command's opcode. -/
theorem opcode_of_decodeOp {op : BitVec 4} {i : Instr} (h : decodeOp op = .ok i) : op = i.opcode := by
  have all : ∀ op : BitVec 4, ∀ i : Instr, decodeOp op = .ok i → op = i.opcode := by
    intro op i
    cases i <;> revert op <;> decide
  exact all op i h

theorem opcode_injective {i j : Instr} (h : i.opcode = j.opcode) : i = j := by
  have hi := decodeOp_opcode i
  rw [h, decodeOp_opcode j] at hi
  exact (Except.ok.inj hi).symm

end Sys2Proof
end

