-- ==== Sys2Proof/Laws/Arith.lean ====
section
/-! SUPPORT. What the limb primitives, the comparison, the subtraction and the two `mac` chains compute, as integers: one
lemma per function, which later proofs cite. -/

namespace Sys2Proof.Machine

theorem zero_toNat : (0 : Word).toNat = 0 := rfl

theorem lo64_toNat (s : BitVec 128) : (lo64 s).toNat = s.toNat % 2 ^ 64 := by
  simp [lo64]

theorem hi64_toNat (s : BitVec 128) : (hi64 s).toNat = s.toNat / 2 ^ 64 := by
  have h := s.isLt
  simp only [hi64, BitVec.toNat_setWidth, BitVec.toNat_ushiftRight, Nat.shiftRight_eq_div_pow]
  omega

theorem zext128_toNat (v : Word) : (zext128 v).toNat = v.toNat := by
  have h := v.isLt
  simp only [zext128, BitVec.toNat_setWidth]
  omega

/-- A product of two limbs leaves room for two more limbs in 128 bits (40_limb_primitives.md R110). -/
theorem mac_bound (a b c carry : Word) : a.toNat + b.toNat * c.toNat + carry.toNat < 2 ^ 128 := by
  have ha := a.isLt
  have hk := carry.isLt
  have hb : b.toNat ≤ 2 ^ 64 - 1 := by have := b.isLt; omega
  have hc : c.toNat ≤ 2 ^ 64 - 1 := by have := c.isLt; omega
  have hp : b.toNat * c.toNat ≤ (2 ^ 64 - 1) * (2 ^ 64 - 1) := Nat.mul_le_mul hb hc
  omega

theorem mac_sum_toNat (a b c carry : Word) :
    (zext128 a + zext128 b * zext128 c + zext128 carry).toNat = a.toNat + b.toNat * c.toNat + carry.toNat := by
  have h := mac_bound a b c carry
  have hp : b.toNat * c.toNat < 2 ^ 128 := by omega
  simp only [BitVec.toNat_add, BitVec.toNat_mul, zext128_toNat, Nat.mod_eq_of_lt hp]
  omega

theorem mac_fst (a b c carry : Word) :
    (mac a b c carry).1.toNat = (a.toNat + b.toNat * c.toNat + carry.toNat) % 2 ^ 64 := by
  simp only [mac, lo64_toNat, mac_sum_toNat]

theorem mac_snd (a b c carry : Word) :
    (mac a b c carry).2.toNat = (a.toNat + b.toNat * c.toNat + carry.toNat) / 2 ^ 64 := by
  simp only [mac, hi64_toNat, mac_sum_toNat]

/-- `lo + hi·2^64 = a + b·c + carry` (R110). -/
theorem mac_exact (a b c carry : Word) :
    (mac a b c carry).1.toNat + 2 ^ 64 * (mac a b c carry).2.toNat = a.toNat + b.toNat * c.toNat + carry.toNat := by
  rw [mac_fst, mac_snd, Nat.mod_add_div]

/-- `lo + hi·2^64 = a + b·c` (R112). -/
theorem macx_exact (a b c : Word) :
    (macx a b c).1.toNat + 2 ^ 64 * (macx a b c).2.toNat = a.toNat + b.toNat * c.toNat := by
  simpa [macx] using mac_exact a b c 0

theorem adc_sum_toNat (a b carry : Word) :
    (zext128 a + zext128 b + zext128 carry).toNat = a.toNat + b.toNat + carry.toNat := by
  have ha := a.isLt
  have hb := b.isLt
  have hk := carry.isLt
  simp only [BitVec.toNat_add, zext128_toNat]
  omega

theorem adc_fst (a b carry : Word) : (adc a b carry).1.toNat = (a.toNat + b.toNat + carry.toNat) % 2 ^ 64 := by
  simp only [adc, lo64_toNat, adc_sum_toNat]

theorem adc_snd (a b carry : Word) : (adc a b carry).2.toNat = (a.toNat + b.toNat + carry.toNat) / 2 ^ 64 := by
  simp only [adc, hi64_toNat, adc_sum_toNat]

/-- `lo + hi·2^64 = a + b + carry` (R114). -/
theorem adc_exact (a b carry : Word) :
    (adc a b carry).1.toNat + 2 ^ 64 * (adc a b carry).2.toNat = a.toNat + b.toNat + carry.toNat := by
  rw [adc_fst, adc_snd, Nat.mod_add_div]

theorem sbb_sum_toNat (a b borrow : Word) :
    (0x10000000000000000#128 + zext128 a - zext128 b - zext128 borrow).toNat
      = (2 ^ 128 + 2 ^ 64 + a.toNat - b.toNat - borrow.toNat) % 2 ^ 128 := by
  have ha := a.isLt
  have hb := b.isLt
  have hk := borrow.isLt
  simp only [BitVec.toNat_sub, BitVec.toNat_add, zext128_toNat, BitVec.toNat_ofNat]
  omega

theorem sbb_fst (a b borrow : Word) :
    (sbb a b borrow).1.toNat = (2 ^ 65 + a.toNat - b.toNat - borrow.toNat) % 2 ^ 64 := by
  have ha := a.isLt
  have hb := b.isLt
  have hk := borrow.isLt
  simp only [sbb, lo64_toNat, sbb_sum_toNat]
  omega

/-- The borrow out, exactly: 1 iff `−2^64 <= a − b − borrow < 0` (R116). -/
theorem sbb_snd (a b borrow : Word) :
    (sbb a b borrow).2 =
      if a.toNat < b.toNat + borrow.toNat ∧ b.toNat + borrow.toNat ≤ a.toNat + 2 ^ 64 then 1 else 0 := by
  have ha := a.isLt
  have hb := b.isLt
  have hk := borrow.isLt
  have hz : hi64 (0x10000000000000000#128 + zext128 a - zext128 b - zext128 borrow) = 0 ↔
      (a.toNat < b.toNat + borrow.toNat ∧ b.toNat + borrow.toNat ≤ a.toNat + 2 ^ 64) := by
    rw [← BitVec.toNat_inj, hi64_toNat, sbb_sum_toNat, zero_toNat]
    omega
  simp only [sbb, hz]

/-- With a borrow in of 0 or 1 the difference is exact: `d + b + borrow = a + borrow_out·2^64` (R116). -/
theorem sbb_exact (a b borrow : Word) (h : borrow.toNat ≤ 1) :
    (sbb a b borrow).1.toNat + b.toNat + borrow.toNat = a.toNat + 2 ^ 64 * (sbb a b borrow).2.toNat ∧
      (sbb a b borrow).2.toNat ≤ 1 := by
  have ha := a.isLt
  have hb := b.isLt
  rw [sbb_snd, sbb_fst]
  split <;> simp <;> omega

/-- `greater_or_equal` compares the values (41_compare_reduce.md R140). -/
theorem greaterOrEqual_eq (a b : Limbs) : greaterOrEqual a b = decide (b.val ≤ a.val) := by
  obtain ⟨a0, a1, a2, a3⟩ := a
  obtain ⟨b0, b1, b2, b3⟩ := b
  have h0 := a0.isLt
  have h1 := a1.isLt
  have h2 := a2.isLt
  have h3 := a3.isLt
  have k0 := b0.isLt
  have k1 := b1.isLt
  have k2 := b2.isLt
  have k3 := b3.isLt
  simp only [greaterOrEqual, geqFrom, Limbs.val, gt_iff_lt, BitVec.lt_def]
  split_ifs <;> first | exact (decide_eq_true (by omega)).symm | exact (decide_eq_false (by omega)).symm

/-- The subtraction chain is exact: `val(d) + val(p) = val(a) + borrow·2^256` (R142). -/
theorem subtractChain_exact (a p : Limbs) :
    (subtractChain a p).1.val + p.val = a.val + 2 ^ 256 * (subtractChain a p).2.toNat ∧
      (subtractChain a p).2.toNat ≤ 1 := by
  have e0 := sbb_exact a.l0 p.l0 0 (by simp)
  have e1 := sbb_exact a.l1 p.l1 _ e0.2
  have e2 := sbb_exact a.l2 p.l2 _ e1.2
  have e3 := sbb_exact a.l3 p.l3 _ e2.2
  simp only [subtractChain, Limbs.val]
  rw [zero_toNat] at e0
  refine ⟨?_, e3.2⟩
  omega

/-- `conditional_subtract` subtracts once, where it can (R142). -/
theorem conditionalSubtract_eq (a p : Limbs) :
    conditionalSubtract a p = if p.val ≤ a.val then (Limbs.ofNat (a.val - p.val), true) else (a, false) := by
  simp only [conditionalSubtract, greaterOrEqual_eq, decide_eq_true_eq]
  split
  · rename_i h
    obtain ⟨he, hb⟩ := subtractChain_exact a p
    have hlt := (subtractChain a p).1.val_lt
    have ha := a.val_lt
    have hz : (subtractChain a p).2.toNat = 0 := by omega
    congr 1
    apply Limbs.ext_val
    rw [Limbs.val_ofNat]
    omega
  · rfl

/-- The accumulating chain is exact for a fixed limb `x`: `val(t') + carry·2^256 = val(t) + x·val(v)` (42_cios_mul.md R160
step 1). -/
theorem macChain_splat_left (t v : Limbs) (x : Word) :
    (macChain t (Limbs.splat x) v).1.val + 2 ^ 256 * (macChain t (Limbs.splat x) v).2.toNat
      = t.val + x.toNat * v.val := by
  have e0 := mac_exact t.l0 x v.l0 0
  have e1 := mac_exact t.l1 x v.l1 (mac t.l0 x v.l0 0).2
  have e2 := mac_exact t.l2 x v.l2 (mac t.l1 x v.l1 (mac t.l0 x v.l0 0).2).2
  have e3 := mac_exact t.l3 x v.l3 (mac t.l2 x v.l2 (mac t.l1 x v.l1 (mac t.l0 x v.l0 0).2).2).2
  simp only [macChain, Limbs.splat, Limbs.val]
  rw [zero_toNat] at e0
  linear_combination e0 + 2 ^ 64 * e1 + 2 ^ 128 * e2 + 2 ^ 192 * e3

/-- The same with the fixed limb second (43_edmsm_mul.md R190). -/
theorem macChain_splat_right (t u : Limbs) (x : Word) :
    (macChain t u (Limbs.splat x)).1.val + 2 ^ 256 * (macChain t u (Limbs.splat x)).2.toNat
      = t.val + u.val * x.toNat := by
  have e0 := mac_exact t.l0 u.l0 x 0
  have e1 := mac_exact t.l1 u.l1 x (mac t.l0 u.l0 x 0).2
  have e2 := mac_exact t.l2 u.l2 x (mac t.l1 u.l1 x (mac t.l0 u.l0 x 0).2).2
  have e3 := mac_exact t.l3 u.l3 x (mac t.l2 u.l2 x (mac t.l1 u.l1 x (mac t.l0 u.l0 x 0).2).2).2
  simp only [macChain, Limbs.splat, Limbs.val]
  rw [zero_toNat] at e0
  linear_combination e0 + 2 ^ 64 * e1 + 2 ^ 128 * e2 + 2 ^ 192 * e3

/-- The low three limbs of a vector as a number: what the reducing chain leaves before the top limb is written. -/
def lowThree (v : Limbs) : Nat := v.l0.toNat + 2 ^ 64 * v.l1.toNat + 2 ^ 128 * v.l2.toNat

theorem val_eq_lowThree (v : Limbs) : v.val = lowThree v + 2 ^ 192 * v.l3.toNat := rfl

/-- The reducing chain divides by `2^64`, dropping the low limb of `val(t) + m·val(p)` (42_cios_mul.md R160 step 4). -/
theorem reduceChain_exact (t : Limbs) (m : Word) (p : Limbs) :
    lowThree (reduceChain t m p).1 + 2 ^ 192 * (reduceChain t m p).2.toNat = (t.val + m.toNat * p.val) / 2 ^ 64 := by
  have e0 := macx_exact t.l0 m p.l0
  have l0 := (macx t.l0 m p.l0).1.isLt
  have e1 := mac_exact t.l1 m p.l1 (macx t.l0 m p.l0).2
  have e2 := mac_exact t.l2 m p.l2 (mac t.l1 m p.l1 (macx t.l0 m p.l0).2).2
  have e3 := mac_exact t.l3 m p.l3 (mac t.l2 m p.l2 (mac t.l1 m p.l1 (macx t.l0 m p.l0).2).2).2
  have key : (macx t.l0 m p.l0).1.toNat +
      2 ^ 64 * (lowThree (reduceChain t m p).1 + 2 ^ 192 * (reduceChain t m p).2.toNat) = t.val + m.toNat * p.val := by
    simp only [reduceChain, lowThree, Limbs.val]
    linear_combination e0 + 2 ^ 64 * e1 + 2 ^ 128 * e2 + 2 ^ 192 * e3
  omega

end Sys2Proof.Machine
end

