-- ==== Sys2Proof/Laws/State.lean ====
section
/-! SUPPORT. What each named update of State does to each field: one lemma per field per update, so that no proof unfolds a
record update. -/

namespace Sys2Proof.Machine

/-! ### complete -/

@[simp] theorem complete_cfg (r : Limbs × Bool) (s : State) : (complete r s).cfg = s.cfg := rfl
@[simp] theorem complete_x (r : Limbs × Bool) (s : State) : (complete r s).x = s.x := rfl
@[simp] theorem complete_y (r : Limbs × Bool) (s : State) : (complete r s).y = s.y := rfl
@[simp] theorem complete_z (r : Limbs × Bool) (s : State) : (complete r s).z = r.1 := rfl
@[simp] theorem complete_busy (r : Limbs × Bool) (s : State) : (complete r s).busy = false := rfl
@[simp] theorem complete_done (r : Limbs × Bool) (s : State) : (complete r s).done = true := rfl
@[simp] theorem complete_flag (r : Limbs × Bool) (s : State) : (complete r s).flag = r.2 := rfl
@[simp] theorem complete_ill (r : Limbs × Bool) (s : State) : (complete r s).ill = s.ill := rfl
@[simp] theorem complete_drop (r : Limbs × Bool) (s : State) : (complete r s).drop = s.drop := rfl
@[simp] theorem complete_xl (r : Limbs × Bool) (s : State) : (complete r s).xl = s.xl := rfl
@[simp] theorem complete_yl (r : Limbs × Bool) (s : State) : (complete r s).yl = s.yl := rfl
@[simp] theorem complete_opl (r : Limbs × Bool) (s : State) : (complete r s).opl = s.opl := rfl
@[simp] theorem complete_cnt (r : Limbs × Bool) (s : State) : (complete r s).cnt = s.cnt := rfl
@[simp] theorem complete_inputs (r : Limbs × Bool) (s : State) : (complete r s).inputs = s.inputs := rfl
@[simp] theorem complete_resp (r : Limbs × Bool) (s : State) : (complete r s).resp = s.resp := rfl

/-! ### accept -/

@[simp] theorem accept_cfg (i : Instr) (s : State) : (accept i s).cfg = s.cfg := rfl
@[simp] theorem accept_x (i : Instr) (s : State) : (accept i s).x = s.x := rfl
@[simp] theorem accept_y (i : Instr) (s : State) : (accept i s).y = s.y := rfl
@[simp] theorem accept_z (i : Instr) (s : State) : (accept i s).z = s.z := rfl
@[simp] theorem accept_busy (i : Instr) (s : State) : (accept i s).busy = true := rfl
@[simp] theorem accept_done (i : Instr) (s : State) : (accept i s).done = false := rfl
@[simp] theorem accept_flag (i : Instr) (s : State) : (accept i s).flag = s.flag := rfl
@[simp] theorem accept_ill (i : Instr) (s : State) : (accept i s).ill = s.ill := rfl
@[simp] theorem accept_drop (i : Instr) (s : State) : (accept i s).drop = s.drop := rfl
@[simp] theorem accept_xl (i : Instr) (s : State) : (accept i s).xl = s.x := rfl
@[simp] theorem accept_yl (i : Instr) (s : State) : (accept i s).yl = s.y := rfl
@[simp] theorem accept_opl (i : Instr) (s : State) : (accept i s).opl = i.opcode := rfl
@[simp] theorem accept_cnt (i : Instr) (s : State) : (accept i s).cnt = s.cfg.latOf i := rfl
@[simp] theorem accept_inputs (i : Instr) (s : State) : (accept i s).inputs = s.inputs := rfl
@[simp] theorem accept_resp (i : Instr) (s : State) : (accept i s).resp = s.resp := rfl

/-! ### raiseBusError -/

@[simp] theorem raiseBusError_cfg (s : State) : (raiseBusError s).cfg = s.cfg := rfl
@[simp] theorem raiseBusError_x (s : State) : (raiseBusError s).x = s.x := rfl
@[simp] theorem raiseBusError_y (s : State) : (raiseBusError s).y = s.y := rfl
@[simp] theorem raiseBusError_z (s : State) : (raiseBusError s).z = s.z := rfl
@[simp] theorem raiseBusError_busy (s : State) : (raiseBusError s).busy = s.busy := rfl
@[simp] theorem raiseBusError_done (s : State) : (raiseBusError s).done = s.done := rfl
@[simp] theorem raiseBusError_flag (s : State) : (raiseBusError s).flag = s.flag := rfl
@[simp] theorem raiseBusError_ill (s : State) : (raiseBusError s).ill = s.ill := rfl
@[simp] theorem raiseBusError_drop (s : State) : (raiseBusError s).drop = s.drop := rfl
@[simp] theorem raiseBusError_xl (s : State) : (raiseBusError s).xl = s.xl := rfl
@[simp] theorem raiseBusError_yl (s : State) : (raiseBusError s).yl = s.yl := rfl
@[simp] theorem raiseBusError_opl (s : State) : (raiseBusError s).opl = s.opl := rfl
@[simp] theorem raiseBusError_cnt (s : State) : (raiseBusError s).cnt = s.cnt := rfl
@[simp] theorem raiseBusError_inputs (s : State) : (raiseBusError s).inputs = s.inputs := rfl
@[simp] theorem raiseBusError_resp (s : State) : (raiseBusError s).resp = .error := rfl

/-! ### raiseIllegal -/

@[simp] theorem raiseIllegal_cfg (s : State) : (raiseIllegal s).cfg = s.cfg := rfl
@[simp] theorem raiseIllegal_x (s : State) : (raiseIllegal s).x = s.x := rfl
@[simp] theorem raiseIllegal_y (s : State) : (raiseIllegal s).y = s.y := rfl
@[simp] theorem raiseIllegal_z (s : State) : (raiseIllegal s).z = s.z := rfl
@[simp] theorem raiseIllegal_busy (s : State) : (raiseIllegal s).busy = s.busy := rfl
@[simp] theorem raiseIllegal_done (s : State) : (raiseIllegal s).done = true := rfl
@[simp] theorem raiseIllegal_flag (s : State) : (raiseIllegal s).flag = s.flag := rfl
@[simp] theorem raiseIllegal_ill (s : State) : (raiseIllegal s).ill = true := rfl
@[simp] theorem raiseIllegal_drop (s : State) : (raiseIllegal s).drop = s.drop := rfl
@[simp] theorem raiseIllegal_xl (s : State) : (raiseIllegal s).xl = s.xl := rfl
@[simp] theorem raiseIllegal_yl (s : State) : (raiseIllegal s).yl = s.yl := rfl
@[simp] theorem raiseIllegal_opl (s : State) : (raiseIllegal s).opl = s.opl := rfl
@[simp] theorem raiseIllegal_cnt (s : State) : (raiseIllegal s).cnt = s.cnt := rfl
@[simp] theorem raiseIllegal_inputs (s : State) : (raiseIllegal s).inputs = s.inputs := rfl
@[simp] theorem raiseIllegal_resp (s : State) : (raiseIllegal s).resp = s.resp := rfl

/-! ### raiseDropped -/

@[simp] theorem raiseDropped_cfg (s : State) : (raiseDropped s).cfg = s.cfg := rfl
@[simp] theorem raiseDropped_x (s : State) : (raiseDropped s).x = s.x := rfl
@[simp] theorem raiseDropped_y (s : State) : (raiseDropped s).y = s.y := rfl
@[simp] theorem raiseDropped_z (s : State) : (raiseDropped s).z = s.z := rfl
@[simp] theorem raiseDropped_busy (s : State) : (raiseDropped s).busy = s.busy := rfl
@[simp] theorem raiseDropped_done (s : State) : (raiseDropped s).done = s.done := rfl
@[simp] theorem raiseDropped_flag (s : State) : (raiseDropped s).flag = s.flag := rfl
@[simp] theorem raiseDropped_ill (s : State) : (raiseDropped s).ill = s.ill := rfl
@[simp] theorem raiseDropped_drop (s : State) : (raiseDropped s).drop = true := rfl
@[simp] theorem raiseDropped_xl (s : State) : (raiseDropped s).xl = s.xl := rfl
@[simp] theorem raiseDropped_yl (s : State) : (raiseDropped s).yl = s.yl := rfl
@[simp] theorem raiseDropped_opl (s : State) : (raiseDropped s).opl = s.opl := rfl
@[simp] theorem raiseDropped_cnt (s : State) : (raiseDropped s).cnt = s.cnt := rfl
@[simp] theorem raiseDropped_inputs (s : State) : (raiseDropped s).inputs = s.inputs := rfl
@[simp] theorem raiseDropped_resp (s : State) : (raiseDropped s).resp = s.resp := rfl

/-! ### statusWrite -/

@[simp] theorem statusWrite_cfg (v : Word) (s : State) : (statusWrite v s).cfg = s.cfg := rfl
@[simp] theorem statusWrite_x (v : Word) (s : State) : (statusWrite v s).x = s.x := rfl
@[simp] theorem statusWrite_y (v : Word) (s : State) : (statusWrite v s).y = s.y := rfl
@[simp] theorem statusWrite_z (v : Word) (s : State) : (statusWrite v s).z = s.z := rfl
@[simp] theorem statusWrite_busy (v : Word) (s : State) : (statusWrite v s).busy = s.busy := rfl
@[simp] theorem statusWrite_done (v : Word) (s : State) : (statusWrite v s).done = (s.done && !v.getLsbD 1) := rfl
@[simp] theorem statusWrite_flag (v : Word) (s : State) : (statusWrite v s).flag = s.flag := rfl
@[simp] theorem statusWrite_ill (v : Word) (s : State) : (statusWrite v s).ill = (s.ill && !v.getLsbD 3) := rfl
@[simp] theorem statusWrite_drop (v : Word) (s : State) : (statusWrite v s).drop = (s.drop && !v.getLsbD 4) := rfl
@[simp] theorem statusWrite_xl (v : Word) (s : State) : (statusWrite v s).xl = s.xl := rfl
@[simp] theorem statusWrite_yl (v : Word) (s : State) : (statusWrite v s).yl = s.yl := rfl
@[simp] theorem statusWrite_opl (v : Word) (s : State) : (statusWrite v s).opl = s.opl := rfl
@[simp] theorem statusWrite_cnt (v : Word) (s : State) : (statusWrite v s).cnt = s.cnt := rfl
@[simp] theorem statusWrite_inputs (v : Word) (s : State) : (statusWrite v s).inputs = s.inputs := rfl
@[simp] theorem statusWrite_resp (v : Word) (s : State) : (statusWrite v s).resp = s.resp := rfl

/-! ### hostRead -/

@[simp] theorem hostRead_cfg (r : Reg) (s : State) : (hostRead r s).cfg = s.cfg := rfl
@[simp] theorem hostRead_x (r : Reg) (s : State) : (hostRead r s).x = s.x := rfl
@[simp] theorem hostRead_y (r : Reg) (s : State) : (hostRead r s).y = s.y := rfl
@[simp] theorem hostRead_z (r : Reg) (s : State) : (hostRead r s).z = s.z := rfl
@[simp] theorem hostRead_busy (r : Reg) (s : State) : (hostRead r s).busy = s.busy := rfl
@[simp] theorem hostRead_done (r : Reg) (s : State) : (hostRead r s).done = s.done := rfl
@[simp] theorem hostRead_flag (r : Reg) (s : State) : (hostRead r s).flag = s.flag := rfl
@[simp] theorem hostRead_ill (r : Reg) (s : State) : (hostRead r s).ill = s.ill := rfl
@[simp] theorem hostRead_drop (r : Reg) (s : State) : (hostRead r s).drop = s.drop := rfl
@[simp] theorem hostRead_xl (r : Reg) (s : State) : (hostRead r s).xl = s.xl := rfl
@[simp] theorem hostRead_yl (r : Reg) (s : State) : (hostRead r s).yl = s.yl := rfl
@[simp] theorem hostRead_opl (r : Reg) (s : State) : (hostRead r s).opl = s.opl := rfl
@[simp] theorem hostRead_cnt (r : Reg) (s : State) : (hostRead r s).cnt = s.cnt := rfl
@[simp] theorem hostRead_inputs (r : Reg) (s : State) : (hostRead r s).inputs = s.inputs := rfl
@[simp] theorem hostRead_resp (r : Reg) (s : State) : (hostRead r s).resp = .data (readReg r s) := rfl

/-! ### takeEdge -/

@[simp] theorem takeEdge_cfg (s : State) : (takeEdge s).cfg = s.cfg := rfl
@[simp] theorem takeEdge_x (s : State) : (takeEdge s).x = s.x := rfl
@[simp] theorem takeEdge_y (s : State) : (takeEdge s).y = s.y := rfl
@[simp] theorem takeEdge_z (s : State) : (takeEdge s).z = s.z := rfl
@[simp] theorem takeEdge_busy (s : State) : (takeEdge s).busy = s.busy := rfl
@[simp] theorem takeEdge_done (s : State) : (takeEdge s).done = s.done := rfl
@[simp] theorem takeEdge_flag (s : State) : (takeEdge s).flag = s.flag := rfl
@[simp] theorem takeEdge_ill (s : State) : (takeEdge s).ill = s.ill := rfl
@[simp] theorem takeEdge_drop (s : State) : (takeEdge s).drop = s.drop := rfl
@[simp] theorem takeEdge_xl (s : State) : (takeEdge s).xl = s.xl := rfl
@[simp] theorem takeEdge_yl (s : State) : (takeEdge s).yl = s.yl := rfl
@[simp] theorem takeEdge_opl (s : State) : (takeEdge s).opl = s.opl := rfl
@[simp] theorem takeEdge_cnt (s : State) : (takeEdge s).cnt = s.cnt := rfl
@[simp] theorem takeEdge_inputs (s : State) : (takeEdge s).inputs = s.inputs.tail := rfl
@[simp] theorem takeEdge_resp (s : State) : (takeEdge s).resp = s.resp := rfl

/-! ### forgetTime -/

@[simp] theorem forgetTime_cfg (s : State) : (forgetTime s).cfg = s.cfg := rfl
@[simp] theorem forgetTime_x (s : State) : (forgetTime s).x = s.x := rfl
@[simp] theorem forgetTime_y (s : State) : (forgetTime s).y = s.y := rfl
@[simp] theorem forgetTime_z (s : State) : (forgetTime s).z = s.z := rfl
@[simp] theorem forgetTime_busy (s : State) : (forgetTime s).busy = s.busy := rfl
@[simp] theorem forgetTime_done (s : State) : (forgetTime s).done = s.done := rfl
@[simp] theorem forgetTime_flag (s : State) : (forgetTime s).flag = s.flag := rfl
@[simp] theorem forgetTime_ill (s : State) : (forgetTime s).ill = s.ill := rfl
@[simp] theorem forgetTime_drop (s : State) : (forgetTime s).drop = s.drop := rfl
@[simp] theorem forgetTime_xl (s : State) : (forgetTime s).xl = s.xl := rfl
@[simp] theorem forgetTime_yl (s : State) : (forgetTime s).yl = s.yl := rfl
@[simp] theorem forgetTime_opl (s : State) : (forgetTime s).opl = s.opl := rfl
@[simp] theorem forgetTime_cnt (s : State) : (forgetTime s).cnt = 0 := rfl
@[simp] theorem forgetTime_inputs (s : State) : (forgetTime s).inputs = [] := rfl
@[simp] theorem forgetTime_resp (s : State) : (forgetTime s).resp = .none := rfl

/-! ### resetEdge -/

@[simp] theorem resetEdge_cfg (a : Option Access) (s : State) : (resetEdge a s).cfg = s.cfg := rfl
@[simp] theorem resetEdge_x (a : Option Access) (s : State) : (resetEdge a s).x = Limbs.zero := rfl
@[simp] theorem resetEdge_y (a : Option Access) (s : State) : (resetEdge a s).y = Limbs.zero := rfl
@[simp] theorem resetEdge_z (a : Option Access) (s : State) : (resetEdge a s).z = Limbs.zero := rfl
@[simp] theorem resetEdge_busy (a : Option Access) (s : State) : (resetEdge a s).busy = false := rfl
@[simp] theorem resetEdge_done (a : Option Access) (s : State) : (resetEdge a s).done = false := rfl
@[simp] theorem resetEdge_flag (a : Option Access) (s : State) : (resetEdge a s).flag = false := rfl
@[simp] theorem resetEdge_ill (a : Option Access) (s : State) : (resetEdge a s).ill = false := rfl
@[simp] theorem resetEdge_drop (a : Option Access) (s : State) : (resetEdge a s).drop = false := rfl
@[simp] theorem resetEdge_xl (a : Option Access) (s : State) : (resetEdge a s).xl = Limbs.zero := rfl
@[simp] theorem resetEdge_yl (a : Option Access) (s : State) : (resetEdge a s).yl = Limbs.zero := rfl
@[simp] theorem resetEdge_opl (a : Option Access) (s : State) : (resetEdge a s).opl = 0 := rfl
@[simp] theorem resetEdge_cnt (a : Option Access) (s : State) : (resetEdge a s).cnt = 0 := rfl
@[simp] theorem resetEdge_inputs (a : Option Access) (s : State) : (resetEdge a s).inputs = s.inputs := rfl

/-! ### resetIn -/

@[simp] theorem resetIn_cfg (c : Config) : (State.resetIn c).cfg = c := rfl
@[simp] theorem resetIn_x (c : Config) : (State.resetIn c).x = Limbs.zero := rfl
@[simp] theorem resetIn_y (c : Config) : (State.resetIn c).y = Limbs.zero := rfl
@[simp] theorem resetIn_z (c : Config) : (State.resetIn c).z = Limbs.zero := rfl
@[simp] theorem resetIn_busy (c : Config) : (State.resetIn c).busy = false := rfl
@[simp] theorem resetIn_done (c : Config) : (State.resetIn c).done = false := rfl
@[simp] theorem resetIn_flag (c : Config) : (State.resetIn c).flag = false := rfl
@[simp] theorem resetIn_ill (c : Config) : (State.resetIn c).ill = false := rfl
@[simp] theorem resetIn_drop (c : Config) : (State.resetIn c).drop = false := rfl
@[simp] theorem resetIn_xl (c : Config) : (State.resetIn c).xl = Limbs.zero := rfl
@[simp] theorem resetIn_yl (c : Config) : (State.resetIn c).yl = Limbs.zero := rfl
@[simp] theorem resetIn_opl (c : Config) : (State.resetIn c).opl = 0 := rfl
@[simp] theorem resetIn_cnt (c : Config) : (State.resetIn c).cnt = 0 := rfl
@[simp] theorem resetIn_inputs (c : Config) : (State.resetIn c).inputs = [] := rfl
@[simp] theorem resetIn_resp (c : Config) : (State.resetIn c).resp = .none := rfl

end Sys2Proof.Machine
end

