-- ==== Sys2Proof/Laws/Window.lean ====
section
/-! SUPPORT. The register map and what one host access can do: everything it can do is said once, in `hostAccess_cases`. -/

namespace Sys2Proof.Machine

@[simp] theorem regAt_regOffset (r : Reg) : regAt (regOffset r) = some r := by
  cases r with
  | x k => revert k; decide
  | y k => revert k; decide
  | z k => revert k; decide
  | cmd => decide
  | status => decide
  | caps => decide
  | p k => revert k; decide
  | inv => decide
  | r1 k => revert k; decide
  | r2 k => revert k; decide
  | r3 k => revert k; decide

theorem regOffset_of_regAt {off : Nat} {r : Reg} (h : regAt off = some r) : regOffset r = off := by
  simpa using List.find?_some h

/-- Where a register starts, the offset is aligned and in the window. -/
theorem regOffset_bounds (r : Reg) : regOffset r % 8 = 0 ∧ regOffset r < windowSize := by
  cases r with
  | x k => have := k.isLt; simp only [regOffset, windowSize]; omega
  | y k => have := k.isLt; simp only [regOffset, windowSize]; omega
  | z k => have := k.isLt; simp only [regOffset, windowSize]; omega
  | cmd => decide
  | status => decide
  | caps => decide
  | p k => have := k.isLt; simp only [regOffset, windowSize]; omega
  | inv => decide
  | r1 k => have := k.isLt; simp only [regOffset, windowSize]; omega
  | r2 k => have := k.isLt; simp only [regOffset, windowSize]; omega
  | r3 k => have := k.isLt; simp only [regOffset, windowSize]; omega

theorem windowOffset_base (c : Config) (off : Nat) (h : off < windowSize) :
    windowOffset c (c.base + off) = some off := by
  simp only [windowOffset]
  rw [if_pos (by omega)]
  congr 1
  omega

theorem windowOffset_some {c : Config} {addr off : Nat} (h : windowOffset c addr = some off) :
    addr = c.base + off ∧ off < windowSize := by
  simp only [windowOffset] at h
  split at h
  · injection h
    omega
  · cases h

theorem windowOffset_of_inWindow {c : Config} {a : Access} (h : inWindow c a) :
    windowOffset c (accessAddr a) = some (accessAddr a - c.base) ∧ accessAddr a - c.base < windowSize := by
  have h' : c.base ≤ accessAddr a ∧ accessAddr a < c.base + windowSize := h
  refine ⟨?_, by omega⟩
  simp only [windowOffset, if_pos h']

theorem windowOffset_of_not_inWindow {c : Config} {a : Access} (h : ¬ inWindow c a) :
    windowOffset c (accessAddr a) = none := by
  have h' : ¬ (c.base ≤ accessAddr a ∧ accessAddr a < c.base + windowSize) := h
  simp only [windowOffset, if_neg h']

/-- An access of the window with a wrong width or alignment, or where no register starts, is a bus error. -/
theorem hostAccess_error {a : Access} {s : State} {off : Nat} (hw : windowOffset s.cfg (accessAddr a) = some off)
    (h : accessWidth a ≠ 8 ∨ off % 8 ≠ 0 ∨ regAt off = none) : hostAccess a s = raiseBusError s := by
  by_cases hb : accessWidth a ≠ 8 ∨ off % 8 ≠ 0
  · simp only [hostAccess, hw, if_pos hb]
  · have hr : regAt off = none := by tauto
    simp only [hostAccess, hw, if_neg hb, hr]

/-- An 8-byte access of the window where a register starts is performed at that register. -/
theorem hostAccess_at {a : Access} {s : State} {off : Nat} {r : Reg} (hw : windowOffset s.cfg (accessAddr a) = some off)
    (h8 : accessWidth a = 8) (hr : regAt off = some r) : hostAccess a s = performAt a r s := by
  have hb : ¬ (accessWidth a ≠ 8 ∨ off % 8 ≠ 0) := by
    have := (regOffset_bounds r).1
    rw [regOffset_of_regAt hr] at this
    omega
  simp only [hostAccess, hw, if_neg hb, hr]

theorem hostAccess_read (r : Reg) (s : State) :
    hostAccess (.read (s.cfg.base + regOffset r) 8) s = hostRead r s :=
  hostAccess_at (windowOffset_base _ _ (regOffset_bounds r).2) rfl (regAt_regOffset r)

theorem hostAccess_write (r : Reg) (v : Word) (s : State) :
    hostAccess (.write (s.cfg.base + regOffset r) 8 v) s = hostWrite r v s :=
  hostAccess_at (windowOffset_base _ _ (regOffset_bounds r).2) rfl (regAt_regOffset r)

/-- The write of `v` that an access is, at the register `r`. -/
def Access.writesTo (c : Config) (a : Access) (r : Reg) (v : Word) : Prop := a = .write (c.base + regOffset r) 8 v

/-- Everything a host access can do: answer only, write a limb of X or Y, write STATUS, or write CMD. -/
theorem hostAccess_cases (a : Access) (s : State) :
    (∃ r, hostAccess a s = { s with resp := r }) ∨
    (∃ k v, a.writesTo s.cfg (.x k) v ∧ hostAccess a s = { s with x := s.x.set k v, resp := .ok }) ∨
    (∃ k v, a.writesTo s.cfg (.y k) v ∧ hostAccess a s = { s with y := s.y.set k v, resp := .ok }) ∨
    (∃ v, a.writesTo s.cfg .status v ∧ hostAccess a s = { statusWrite v s with resp := .ok }) ∨
    (∃ v, a.writesTo s.cfg .cmd v ∧ hostAccess a s = { commandWrite v s with resp := .ok }) := by
  cases hw : windowOffset s.cfg (accessAddr a) with
  | none => exact .inl ⟨.none, by simp only [hostAccess, hw]⟩
  | some off =>
    by_cases hb : accessWidth a ≠ 8
    · exact .inl ⟨.error, hostAccess_error hw (.inl hb)⟩
    · cases hr : regAt off with
      | none => exact .inl ⟨.error, hostAccess_error hw (.inr (.inr hr))⟩
      | some r =>
        have heq : hostAccess a s = performAt a r s := hostAccess_at hw (by omega) hr
        have hoff := regOffset_of_regAt hr
        have haddr := (windowOffset_some hw).1
        rw [heq]
        cases a with
        | read addr width => exact .inl ⟨.data (readReg r s), rfl⟩
        | write addr width v =>
          have hwidth : width = 8 := by
            simp only [accessWidth] at hb
            omega
          have hto : Access.writesTo s.cfg (.write addr width v) r v := by
            simp only [Access.writesTo, hwidth, hoff]
            rw [show addr = s.cfg.base + off from haddr]
          cases r with
          | x k => exact .inr (.inl ⟨k, v, hto, rfl⟩)
          | y k => exact .inr (.inr (.inl ⟨k, v, hto, rfl⟩))
          | status => exact .inr (.inr (.inr (.inl ⟨v, hto, rfl⟩)))
          | cmd => exact .inr (.inr (.inr (.inr ⟨v, hto, rfl⟩)))
          | z k => exact .inl ⟨.error, rfl⟩
          | caps => exact .inl ⟨.error, rfl⟩
          | p k => exact .inl ⟨.error, rfl⟩
          | inv => exact .inl ⟨.error, rfl⟩
          | r1 k => exact .inl ⟨.error, rfl⟩
          | r2 k => exact .inl ⟨.error, rfl⟩
          | r3 k => exact .inl ⟨.error, rfl⟩

/-- Everything a write to CMD can do: it is dropped, illegal, or accepted (30_encoding.md R85). -/
theorem commandWrite_cases (v : Word) (s : State) :
    (s.busy = true ∧ commandWrite v s = raiseDropped s) ∨
    (s.busy = false ∧ legal s.cfg v = false ∧ commandWrite v s = raiseIllegal s) ∨
    (s.busy = false ∧ ∃ i, decode v = .ok i ∧ i.wf s.cfg = true ∧ commandWrite v s = accept i s) := by
  cases hb : s.busy with
  | true => exact .inl ⟨rfl, by simp [commandWrite, hb]⟩
  | false =>
    cases hd : decode v with
    | error e => exact .inr (.inl ⟨rfl, by simp only [legal, hd], by simp [commandWrite, hb, hd]⟩)
    | ok i =>
      cases hw : i.wf s.cfg with
      | false => exact .inr (.inl ⟨rfl, by simp only [legal, hd, hw], by simp [commandWrite, hb, hd, hw]⟩)
      | true => exact .inr (.inr ⟨rfl, i, rfl, hw, by simp [commandWrite, hb, hd, hw]⟩)

/-- No access changes the engine's constants or the results of the last command. -/
theorem hostAccess_keeps (a : Access) (s : State) :
    (hostAccess a s).cfg = s.cfg ∧ (hostAccess a s).z = s.z ∧ (hostAccess a s).flag = s.flag ∧
      (hostAccess a s).inputs = s.inputs := by
  obtain ⟨r, h⟩ | ⟨k, v, -, h⟩ | ⟨k, v, -, h⟩ | ⟨v, -, h⟩ | ⟨v, -, h⟩ := hostAccess_cases a s
  · simp [h]
  · simp [h]
  · simp [h]
  · simp [h]
  · obtain ⟨-, e⟩ | ⟨-, -, e⟩ | ⟨-, i, -, -, e⟩ := commandWrite_cases v s <;> simp [h, e]

theorem hostPart_keeps (a : Option Access) (s : State) :
    (hostPart a s).cfg = s.cfg ∧ (hostPart a s).z = s.z ∧ (hostPart a s).flag = s.flag ∧
      (hostPart a s).inputs = s.inputs := by
  cases a with
  | none => exact ⟨rfl, rfl, rfl, rfl⟩
  | some a => exact hostAccess_keeps a s

/-- Where the block is idle after an access, it was idle before it and the access accepted no command. -/
theorem hostAccess_idle {a : Access} {s : State} (h : (hostAccess a s).busy = false) :
    s.busy = false ∧ (hostAccess a s).xl = s.xl ∧ (hostAccess a s).yl = s.yl ∧ (hostAccess a s).opl = s.opl := by
  obtain ⟨r, e⟩ | ⟨k, v, -, e⟩ | ⟨k, v, -, e⟩ | ⟨v, -, e⟩ | ⟨v, -, e⟩ := hostAccess_cases a s
  · rw [e] at h ⊢; exact ⟨h, rfl, rfl, rfl⟩
  · rw [e] at h ⊢; exact ⟨h, rfl, rfl, rfl⟩
  · rw [e] at h ⊢; exact ⟨h, rfl, rfl, rfl⟩
  · rw [e] at h ⊢; exact ⟨h, rfl, rfl, rfl⟩
  · obtain ⟨-, e'⟩ | ⟨-, -, e'⟩ | ⟨-, i, -, -, e'⟩ := commandWrite_cases v s
    · rw [e, e'] at h ⊢; exact ⟨h, rfl, rfl, rfl⟩
    · rw [e, e'] at h ⊢; exact ⟨h, rfl, rfl, rfl⟩
    · rw [e, e'] at h; cases h

theorem hostPart_idle {a : Option Access} {s : State} (h : (hostPart a s).busy = false) :
    s.busy = false ∧ (hostPart a s).xl = s.xl ∧ (hostPart a s).yl = s.yl ∧ (hostPart a s).opl = s.opl := by
  cases a with
  | none => exact ⟨h, rfl, rfl, rfl⟩
  | some a => exact hostAccess_idle h

/-- The table of the window's undefined offsets agrees with the map (20_memory.md R51). -/
theorem regAt_eq_none_iff (off : Nat) (h : off < windowSize) : regAt off = none ↔ undefinedOffset off := by
  by_cases h8 : off % 8 = 0
  · obtain ⟨j, rfl⟩ : ∃ j, off = 8 * j := ⟨off / 8, by omega⟩
    have hj : j < 64 := by simp only [windowSize] at h; omega
    have all : ∀ j < 64, ((regAt (8 * j)).isNone = true ↔
        (8 * j = 0x078 ∨ (0x0A8 ≤ 8 * j ∧ 8 * j ≤ 0x0B8) ∨ 0x120 ≤ 8 * j)) := by decide
    have := all j hj
    simp only [undefinedOffset]
    rw [Option.isNone_iff_eq_none] at this
    rw [this]
    omega
  · constructor
    · intro _
      exact .inl h8
    · intro _
      cases hr : regAt off with
      | none => rfl
      | some r =>
        have := regOffset_of_regAt hr
        have := (regOffset_bounds r).1
        omega

end Sys2Proof.Machine
end

