-- ==== Sys2Proof/Laws/Engine.lean ====
section
/-! SUPPORT. What the engine and one rising edge can do, each said once, and that the run of a command never stops. -/

namespace Sys2Proof.Machine

/-- Every command completes, with the result of `F` (30_encoding.md R86, R87). -/
theorem exec_eq (i : Instr) (s : State) :
    exec i s = .next (complete (commandResult s.cfg i s.xl s.yl) s) := by
  cases i <;> rfl

/-- Everything the engine can do at an edge, where it does not stop. -/
theorem engineEdge_cases {s t : State} (h : engineEdge s = .next t) :
    (s.busy = false ∧ t = s) ∨
    (s.busy = true ∧ ∃ n, s.cnt = n + 2 ∧ t = { s with cnt := n + 1 }) ∨
    (s.busy = true ∧ s.cnt = 1 ∧ ∃ i : Instr, s.opl = i.opcode ∧
      t = complete (commandResult s.cfg i s.xl s.yl) { s with cnt := 0 }) := by
  simp only [engineEdge] at h
  split at h
  · rename_i hb
    refine .inr ?_
    split at h
    · cases h
    · rename_i hc
      refine .inr ⟨hb, hc, ?_⟩
      split at h
      · rename_i i hd
        rw [exec_eq] at h
        exact ⟨i, opcode_of_decodeOp hd, (Host.Outcome.next.inj h).symm⟩
      · cases h
    · rename_i n hc
      exact .inl ⟨hb, n, hc, (Host.Outcome.next.inj h).symm⟩
  · rename_i hb
    exact .inl ⟨by simpa using hb, (Host.Outcome.next.inj h).symm⟩

/-- Everything a step can do, where it answers a next state. -/
theorem step_cases {s t : State} (h : step s = .next t) :
    s.cfg.wf = true ∧
      (((nextEdge s).rst = true ∧ t = resetEdge (nextEdge s).access (takeEdge s)) ∨
       ((nextEdge s).rst = false ∧ ∃ u, engineEdge (takeEdge s) = .next u ∧ t = hostPart (nextEdge s).access u)) := by
  simp only [step, clockEdge] at h
  split at h
  · rename_i hw
    refine ⟨hw, ?_⟩
    split at h
    · rename_i hr
      exact .inl ⟨hr, (Host.Outcome.next.inj h).symm⟩
    · rename_i hr
      refine .inr ⟨by simpa using hr, ?_⟩
      split at h
      · rename_i u hu
        exact ⟨u, hu, (Host.Outcome.next.inj h).symm⟩
      · cases h
      · cases h
  · cases h

/-- An edge without reset, where the engine's part answers `u`. -/
theorem step_of_engine {s u : State} (hw : s.cfg.wf = true) (hr : (nextEdge s).rst = false)
    (hu : engineEdge (takeEdge s) = .next u) : step s = .next (hostPart (nextEdge s).access u) := by
  simp [step, clockEdge, hw, hr, hu]

/-- An edge with reset. -/
theorem step_of_reset {s : State} (hw : s.cfg.wf = true) (hr : (nextEdge s).rst = true) :
    step s = .next (resetEdge (nextEdge s).access (takeEdge s)) := by
  simp [step, clockEdge, hw, hr]

theorem engineEdge_idle {s : State} (hb : s.busy = false) : engineEdge s = .next s := by
  simp [engineEdge, hb]

theorem engineEdge_count {s : State} {n : Nat} (hb : s.busy = true) (hc : s.cnt = n + 2) :
    engineEdge s = .next { s with cnt := n + 1 } := by
  simp [engineEdge, hb, hc]

theorem engineEdge_run {s : State} {i : Instr} (hb : s.busy = true) (hc : s.cnt = 1) (ho : s.opl = i.opcode) :
    engineEdge s = .next (complete (commandResult s.cfg i s.xl s.yl) { s with cnt := 0 }) := by
  simp [engineEdge, hb, hc, ho, exec_eq]

end Sys2Proof.Machine
end

