-- ==== Sys2Proof/Laws/Multipliers.lean ====
section
/-! SUPPORT. One outer iteration of each multiplier as the exact recurrence of 42_cios_mul.md R163 and 43_edmsm_mul.md R193. -/

namespace Sys2Proof.Machine

/-- The running accumulator after an iteration of R160: `val(t) + c1·2^256` (42_cios_mul.md R162). -/
def CiosAcc.value (acc : CiosAcc) : Nat := acc.t.val + 2 ^ 256 * acc.c1.toNat

/-- A vector whose top limb was just written. -/
theorem val_withTop (l : Limbs) (w : Word) : Limbs.val { l with l3 := w } = lowThree l + 2 ^ 192 * w.toNat := rfl

theorem low_mul_inv (c : Config) (t : Limbs) (k : Nat) :
    (t.l0 * c.inv).toNat = c.reductionMultiplier (t.val + 2 ^ 256 * k) := by
  have h : (t.val + 2 ^ 256 * k) % 2 ^ 64 = t.l0.toNat := by
    have := t.l0.isLt
    simp only [Limbs.val]
    omega
  rw [Config.reductionMultiplier, h, BitVec.toNat_mul]

/-- One iteration of R160 is one step of the exact recurrence, whatever `P`, `INV` and the accumulator are: the carry
update `c1 <- c2 +64 carry` never wraps (R163). -/
theorem ciosRound_value (c : Config) (b : Limbs) (acc : CiosAcc) (ai : Word) :
    (ciosRound c b acc ai).value = c.montStep acc.value (ai.toNat * b.val) := by
  have e1 := macChain_splat_left acc.t b ai
  have e2 := adc_exact acc.c1 (macChain acc.t (Limbs.splat ai) b).2 0
  have hm := low_mul_inv c (macChain acc.t (Limbs.splat ai) b).1
    (acc.c1.toNat + (macChain acc.t (Limbs.splat ai) b).2.toNat)
  simp only [ciosRound, CiosAcc.value, val_withTop, Config.montStep]
  generalize macChain acc.t (Limbs.splat ai) b = s1 at *
  generalize hmv : s1.1.l0 * c.inv = m at *
  have e4 := reduceChain_exact s1.1 m c.p
  generalize reduceChain s1.1 m c.p = s4 at *
  have b2 : (adc acc.c1 s1.2 0).2.toNat ≤ 1 := by
    have := acc.c1.isLt; have := s1.2.isLt; rw [adc_snd, zero_toNat]; omega
  generalize adc acc.c1 s1.2 0 = s2 at *
  have e5 := adc_exact s2.1 s4.2 0
  have b5 : (adc s2.1 s4.2 0).2.toNat ≤ 1 := by
    have := s2.1.isLt; have := s4.2.isLt; rw [adc_snd, zero_toNat]; omega
  generalize adc s2.1 s4.2 0 = s5 at *
  have hc : (s2.2 + s5.2).toNat = s2.2.toNat + s5.2.toNat := by rw [BitVec.toNat_add]; omega
  rw [zero_toNat] at e2 e5
  have hT : acc.t.val + 2 ^ 256 * acc.c1.toNat + ai.toNat * b.val
      = s1.1.val + 2 ^ 256 * (acc.c1.toNat + s1.2.toNat) := by omega
  rw [hT, ← hm, hc]
  generalize m.toNat * c.p.val = q at *
  omega

/-- One iteration of R190 is one step of the recurrence wrapped at `2^256` (R193). -/
theorem edmsmRound_value (c : Config) (a t : Limbs) (bi : Word) :
    (edmsmRound c a t bi).val = c.edmStep t.val (a.val * bi.toNat) := by
  have e1 := macChain_splat_right t a bi
  have hm := low_mul_inv c (macChain t a (Limbs.splat bi)).1 (macChain t a (Limbs.splat bi)).2.toNat
  simp only [edmsmRound, val_withTop, Config.edmStep, Config.montStep]
  generalize macChain t a (Limbs.splat bi) = s1 at *
  generalize hmv : s1.1.l0 * c.inv = m at *
  have e4 := reduceChain_exact s1.1 m c.p
  generalize reduceChain s1.1 m c.p = s4 at *
  rw [← e1, ← hm]
  have hb : lowThree s4.1 < 2 ^ 192 := by
    have := s4.1.l0.isLt; have := s4.1.l1.isLt; have := s4.1.l2.isLt; simp only [lowThree]; omega
  rw [BitVec.toNat_add]
  generalize m.toNat * c.p.val = q at *
  omega

/-- The accumulator of MUL after the four iterations is `T_4` (R163). -/
theorem ciosLoop_value (c : Config) (a b : Limbs) : (ciosLoop c a b).value = c.montT4 a b := by
  have h0 : (CiosAcc.mk Limbs.zero 0).value = 0 := by decide
  simp only [ciosLoop, List.foldl_cons, List.foldl_nil, ciosRound_value, h0, Config.montT4]

/-- The four limbs that the conditional subtraction of MUL sees are `T_4 mod 2^256` (R163). -/
theorem ciosLoop_limbs (c : Config) (a b : Limbs) : (ciosLoop c a b).t = Limbs.ofNat (c.montT4 a b) := by
  apply Limbs.ext_val
  rw [Limbs.val_ofNat, ← ciosLoop_value, CiosAcc.value]
  have := (ciosLoop c a b).t.val_lt
  omega

/-- The four limbs that the conditional subtraction of MULE sees are `V_4` (R193). -/
theorem edmsmLoop_value (c : Config) (a b : Limbs) : (edmsmLoop c a b).val = c.edmV4 a b := by
  simp only [edmsmLoop, List.foldl_cons, List.foldl_nil, edmsmRound_value, Limbs.val_zero, Config.edmV4]

end Sys2Proof.Machine
end

