-- ==== Sys2Proof/Laws/PerInstr.lean ====
section
/-! SUPPORT. Statements about each command as syntax: the value of its command word (30_encoding.md rules R80, R81). -/

namespace Sys2Proof.Laws.EncodedWord

/-- The command word of `i` is its opcode, 1 to 8, with `RSV = 0`. -/
def Statement (i : Instr) : Prop :=
  (encode i).toNat = i.opcode.toNat ∧ 1 ≤ (encode i).toNat ∧ (encode i).toNat ≤ 8 ∧ rsvField (encode i) = 0

theorem mul : Statement .mul := by unfold Statement; decide
theorem mule : Statement .mule := by unfold Statement; decide
theorem mac : Statement .mac := by unfold Statement; decide
theorem macx : Statement .macx := by unfold Statement; decide
theorem adc : Statement .adc := by unfold Statement; decide
theorem sbb : Statement .sbb := by unfold Statement; decide
theorem geq : Statement .geq := by unfold Statement; decide
theorem red : Statement .red := by unfold Statement; decide

end Sys2Proof.Laws.EncodedWord
end

