-- ==== Sys2Proof/Tests/Slice0.lean ====
section
/-! SUPPORT. Tests of the model. Expected values are those of spec/95_test_vectors.md (its vector's name stands in each
docstring) or are written out by hand from the encoding of 30_encoding.md R80 and R81. `witness_<Name>` shows that the
hypotheses of `Obligations.<Name>` can be met together. -/

namespace Sys2Proof.Tests

open Sys2Proof Sys2Proof.Machine

/-! ### Helpers -/

/-- The engine in the last cycle of a command on `x`, `y`, in the reference configuration. -/
def latched (i : Instr) (x y : Limbs) : State :=
  { State.reset with x := x, y := y, xl := x, yl := y, opl := i.opcode, busy := true, cnt := 1 }

/-- What is asked of the state a step answers; `none` for a fault or a refusal. -/
def after {α : Type} (o : Host.Outcome State Fault Refusal) (f : State → α) : Option α :=
  match o with
  | .next t    => some (f t)
  | .fault _   => none
  | .refused _ => none

/-- `exec`'s Z and FLAG on the operands `x`, `y`. -/
def result (i : Instr) (x y : Limbs) : Option (Limbs × Bool) :=
  after (exec i (latched i x y)) (fun t => (t.z, t.flag))

/-- One access at an edge without reset. -/
def present (a : Access) (s : State) : State := { s with inputs := [{ rst := false, access := some a }] }

/-- STATUS after one access at one edge. -/
def statusAfter (a : Access) (s : State) : Option Word := after (step (present a s)) statusWord

/-- The response to one access at one edge. -/
def responseTo (a : Access) (s : State) : Option Response := after (step (present a s)) State.resp

def max64 : Word := 0xffffffffffffffff#64

/-- `val(P) = 2^255 − 19`: the instance of vector E4, well formed with `EDM_OK = 0`. -/
def noEdm : Config :=
  { Config.reference with p := ⟨0xffffffffffffffed#64, max64, max64, 0x7fffffffffffffff#64⟩ }

/-- `mont(2)`, `mont(3)` and `mont(6)` of 95_test_vectors.md. -/
def mont2 : Limbs := ⟨0x592c68389ffffff6#64, 0x6df8ed2b3ec19a53#64, 0xccdd46def0f28c5c#64, 0x1c14ef83340fbe5e#64⟩
def mont3 : Limbs := ⟨0x05c29c54effffff1#64, 0xa4f563c0de22677d#64, 0x334bea4e696bd28a#64, 0x2a1f6744ce179d8e#64⟩
def mont6 : Limbs := ⟨0xc7a34315efffffe1#64, 0x21b6df39428b5e68#64, 0xae478ee651564cb8#64, 0x23da8016bafd9af2#64⟩

/-! ### Well-formedness (00_scope.md R6, R8; 30_encoding.md R82): one ill-formed term for each check -/

theorem test_wf_reference : Config.reference.wf = true := by decide
theorem test_wf_refuses_even_modulus :
    ({ Config.reference with p := ⟨0x43e1f593f0000002#64, 0, 0, 0x30644e72e131a029#64⟩ } : Config).wf = false := by decide
theorem test_wf_refuses_modulus_one : ({ Config.reference with p := ⟨1, 0, 0, 0⟩ } : Config).wf = false := by decide
theorem test_wf_accepts_modulus_three : ({ Config.reference with p := ⟨3, 0, 0, 0⟩ } : Config).wf = true := by decide
theorem test_wf_refuses_modulus_above_bound :
    ({ Config.reference with p := ⟨1, 0, 0, 0x8000000000000000#64⟩ } : Config).wf = false := by decide
theorem test_wf_refuses_latency_zero :
    ({ Config.reference with lat := ⟨1, 1, 1, 1, 1, 1, 1, 0⟩ } : Config).wf = false := by decide
theorem test_wf_refuses_misaligned_base : ({ Config.reference with base := 0x100 } : Config).wf = false := by decide
theorem test_wf_accepts_no_edm : noEdm.wf = true ∧ noEdm.edmOk = false := by decide
theorem test_mule_refused_without_edm : Instr.wf noEdm .mule = false ∧ Instr.wf noEdm .mul = true := by decide
theorem test_step_refuses_even_modulus :
    step (State.resetIn { Config.reference with p := ⟨4, 0, 0, 0⟩ }) = .refused .configurationRefused := by rfl

/-! ### Decoding: command words written out from `RSV` (60 bits) and `OP` (4 bits) -/

theorem test_decode_mul : decodeBytes [0b00000001, 0, 0, 0, 0, 0, 0, 0] = .ok .mul := by rfl
theorem test_decode_mule : decodeBytes [0b00000010, 0, 0, 0, 0, 0, 0, 0] = .ok .mule := by rfl
theorem test_decode_mac : decodeBytes [0b00000011, 0, 0, 0, 0, 0, 0, 0] = .ok .mac := by rfl
theorem test_decode_macx : decodeBytes [0b00000100, 0, 0, 0, 0, 0, 0, 0] = .ok .macx := by rfl
theorem test_decode_adc : decodeBytes [0b00000101, 0, 0, 0, 0, 0, 0, 0] = .ok .adc := by rfl
theorem test_decode_sbb : decodeBytes [0b00000110, 0, 0, 0, 0, 0, 0, 0] = .ok .sbb := by rfl
theorem test_decode_geq : decodeBytes [0b00000111, 0, 0, 0, 0, 0, 0, 0] = .ok .geq := by rfl
theorem test_decode_red : decodeBytes [0b00001000, 0, 0, 0, 0, 0, 0, 0] = .ok .red := by rfl
theorem test_decode_refuses_zero : decode 0x0#64 = .error .reservedOpcode := by rfl
theorem test_decode_refuses_nine : decode 0x9#64 = .error .reservedOpcode := by rfl
/-- E3. -/
theorem test_decode_refuses_low_reserved_bit : decode 0x11#64 = .error .reservedBits := by rfl
/-- E3. -/
theorem test_decode_refuses_high_reserved_bit : decode 0x8000000000000001#64 = .error .reservedBits := by rfl
theorem test_decode_refuses_seven_bytes : decodeBytes [1, 0, 0, 0, 0, 0, 0] = .error .wrongLength := by rfl
theorem test_decode_table_word_over_64_bits : decodeTableWord 72 0x10000000000000001 = none := by decide

/-! ### Commands: at most two vectors each -/

/-- M2. -/
theorem test_mac_maximum :
    result .mac ⟨max64, max64, max64, max64⟩ Limbs.zero = some (⟨max64, max64, 0, 0⟩, true) := by decide
/-- M3. -/
theorem test_mac_small : result .mac ⟨1, 2, 3, 4⟩ Limbs.zero = some (⟨0xb, 0, 0, 0⟩, false) := by decide
/-- X1; limb 3 is not read. -/
theorem test_macx_maximum :
    result .macx ⟨max64, max64, max64, 7⟩ Limbs.zero = some (⟨0, max64, 0, 0⟩, true) := by decide
/-- X2. -/
theorem test_macx_zero_factor : result .macx ⟨5, 0, 9, max64⟩ Limbs.zero = some (⟨5, 0, 0, 0⟩, false) := by decide
/-- A1. -/
theorem test_adc_maximum :
    result .adc ⟨max64, max64, max64, 0⟩ Limbs.zero = some (⟨0xfffffffffffffffd#64, 2, 0, 0⟩, true) := by decide
/-- A3. -/
theorem test_adc_no_carry : result .adc ⟨1, 2, 3, 9⟩ Limbs.zero = some (⟨6, 0, 0, 0⟩, false) := by decide
/-- S8. -/
theorem test_sbb_wrapped : result .sbb ⟨0, max64, 2, 0⟩ Limbs.zero = some (⟨max64, 0, 0, 0⟩, false) := by decide
/-- S2. -/
theorem test_sbb_borrow :
    result .sbb ⟨3, 5, 0, 0⟩ Limbs.zero = some (⟨0xfffffffffffffffe#64, 1, 0, 0⟩, true) := by decide
/-- G2. -/
theorem test_geq_high_limb : result .geq ⟨0, 0, 0, 1⟩ ⟨max64, max64, max64, 0⟩ = some (⟨1, 0, 0, 0⟩, true) := by decide
/-- G6. -/
theorem test_geq_low_limb : result .geq ⟨5, 9, 9, 9⟩ ⟨6, 9, 9, 9⟩ = some (⟨0, 0, 0, 0⟩, false) := by decide
/-- D5. -/
theorem test_red_largest_in_domain :
    result .red (Limbs.ofNat 0x60c89ce5c263405370a08b6d0302b0ba5067d090f372e12287c3eb27e0000001) Limbs.zero =
      some (Limbs.ofNat 0x30644e72e131a029b85045b68181585d2833e84879b9709143e1f593f0000000, true) := by decide
/-- D2. -/
theorem test_red_below_modulus :
    result .red (Limbs.ofNat 0x30644e72e131a029b85045b68181585d2833e84879b9709143e1f593f0000000) Limbs.zero =
      some (Limbs.ofNat 0x30644e72e131a029b85045b68181585d2833e84879b9709143e1f593f0000000, false) := by decide
/-- U7. -/
theorem test_mul_mont2_mont3 : result .mul mont2 mont3 = some (mont6, false) := by decide
/-- U14: the subtraction is taken. -/
theorem test_mul_subtraction_taken :
    result .mul (Limbs.ofNat 0x2097b0b973cb5c90650eb8e0584ece91cdaa8c8dd86a24ea9e0815c651008c60)
        (Limbs.ofNat 0x1fcb930d5f1f8d040f053d84aae9bdfb5d199cbab9b4d3b20dd228215420d720) =
      some (Limbs.ofNat 0x03d513393c097c808c9432bc4694d0f12f84346363e2a178c9d10df378c34e5a, true) := by decide
/-- U14: the subtraction is taken. -/
theorem test_mule_subtraction_taken :
    result .mule (Limbs.ofNat 0x2097b0b973cb5c90650eb8e0584ece91cdaa8c8dd86a24ea9e0815c651008c60)
        (Limbs.ofNat 0x1fcb930d5f1f8d040f053d84aae9bdfb5d199cbab9b4d3b20dd228215420d720) =
      some (Limbs.ofNat 0x03d513393c097c808c9432bc4694d0f12f84346363e2a178c9d10df378c34e5a, true) := by decide
/-- O2: `X` out of domain. -/
theorem test_mule_out_of_domain :
    result .mule (Limbs.ofNat (2 ^ 256 - 1))
        (Limbs.ofNat 0x30644e72e131a029b85045b68181585d2833e84879b9709143e1f593f0000000) =
      some (Limbs.ofNat 0x15ebf95182c5551cc8260de4aeb85d5d090ef5a9e111ec87dc5ba0056db1194d, true) := by decide

/-! ### The interface: the vectors E1 to E23 -/

/-- E1. -/
theorem test_illegal_zero : statusAfter (.write 0x060 8 0x0) State.reset = some 0x0A := by decide
/-- E3. -/
theorem test_illegal_reserved_bit : statusAfter (.write 0x060 8 0x8000000000000001) State.reset = some 0x0A := by decide
/-- E4. -/
theorem test_no_edm_mule_illegal :
    statusAfter (.write 0x060 8 0x2) (State.resetIn noEdm) = some 0x0A ∧
      responseTo (.read 0x070 8) (State.resetIn noEdm) = some (.data 0) := by decide
/-- E5: the MUL is in flight with two cycles left; E21: also of an illegal word. -/
theorem test_dropped :
    statusAfter (.write 0x060 8 0x3) { latched .mul mont2 mont3 with cnt := 2 } = some 0x11 ∧
      statusAfter (.write 0x060 8 0x0) { latched .mul mont2 mont3 with cnt := 2 } = some 0x11 := by decide
/-- E6. -/
theorem test_write_to_z_is_error : responseTo (.write 0x040 8 0x5) State.reset = some .error := by decide
/-- E7. -/
theorem test_reserved_offset_is_error : responseTo (.read 0x078 8) State.reset = some .error := by decide
/-- E8 and E9. -/
theorem test_narrow_or_misaligned_is_error :
    responseTo (.read 0x000 4) State.reset = some .error ∧ responseTo (.read 0x004 8) State.reset = some .error := by
  decide
/-- E10. -/
theorem test_cmd_reads_zero : responseTo (.read 0x060 8) State.reset = some (.data 0) := by decide
/-- E11. -/
theorem test_status_write_one_to_clear :
    statusAfter (.write 0x068 8 0x1A) { State.reset with done := true, flag := true, ill := true, drop := true } =
      some 0x04 := by decide
/-- E12. -/
theorem test_status_write_leaves_busy :
    statusAfter (.write 0x068 8 0x1F) { latched .mul mont2 mont3 with cnt := 2, ill := true, drop := true } =
      some 0x01 := by decide
/-- E14. -/
theorem test_constants_read :
    responseTo (.read 0x070 8) State.reset = some (.data 1) ∧
      responseTo (.read 0x0A0 8) State.reset = some (.data 0xc2e1f593efffffff) ∧
      responseTo (.read 0x080 8) State.reset = some (.data 0x43e1f593f0000001) := by decide
/-- E15. -/
theorem test_write_to_constants_is_error :
    responseTo (.write 0x0A0 8 0x0) State.reset = some .error ∧
      responseTo (.write 0x070 8 0x0) State.reset = some .error := by decide
/-- E17: acceptance clears DONE and leaves ILL. -/
theorem test_acceptance_leaves_ill :
    statusAfter (.write 0x060 8 0x1) { State.reset with done := true, ill := true } = some 0x09 := by decide
/-- E18. -/
theorem test_status_read_at_completion : responseTo (.read 0x068 8) (latched .mul mont2 mont3) = some (.data 0x02) := by
  decide
/-- E19. -/
theorem test_command_at_completion_accepted :
    after (step (present (.write 0x060 8 0x7) (latched .mul mont2 mont3))) (fun t => (statusWord t, t.opl)) =
      some (0x01, 7) := by decide
/-- E20. -/
theorem test_done_cleared_at_completion : statusAfter (.write 0x068 8 0x02) (latched .mul mont2 mont3) = some 0x00 := by
  decide
/-- E22. -/
theorem test_reset_abandons_command :
    after (step { latched .mul mont2 mont3 with inputs := [{ rst := true, access := none }] })
      (fun t => decide (t = State.reset)) = some true := by decide
/-- E23. -/
theorem test_access_during_reset_is_error :
    after (step { State.reset with inputs := [{ rst := true, access := some (.read 0x068 8) }] }) State.resp =
      some .error := by decide
/-- E2: the machine's entry presents an illegal word's write, which is answered and leaves ILL. -/
theorem test_placed_illegal_word : after (step (State.reset.withFetchWord 64 0x9)) statusWord = some 0x0A := by decide
/-- The machine's entry runs a placed command next: GEQ of 0 and 0 (G7). -/
theorem test_placed_geq :
    after (step (State.reset.withFetchWord 64 0x7)) (fun t => (t.z.l0, statusWord t)) = some (1, 0x06) := by decide

/-! ### Host programs (30_encoding.md R89, R90) -/

/-- P1's first transaction. -/
theorem test_ldx_transaction :
    transactionOf [] (.wr 0x000 (wideLimb (.lit 0x1c14ef83340fbe5eccdd46def0f28c5c6df8ed2b3ec19a53592c68389ffffff6) 0)) =
      some { rw := true, off := 0x000, data := some 0x592c68389ffffff6 } := by decide
/-- R89: a variable read before an earlier `RD` sets it makes a program ill formed. -/
theorem test_undefined_variable_refused :
    programDefined [] [.wr 0x000 (.var ⟨0, 0⟩)] = false ∧
      programDefined [] [.rd 0x040 (some ⟨0, 0⟩), .wr 0x000 (.var ⟨0, 0⟩)] = true := by decide
/-- P4, case b with `LAT = 1` and back-to-back accesses: `GO 0x9`, then `RD 0x068 -> s1` gives 0x0A. -/
theorem test_host_program_illegal :
    (match runHost [0, 0] { todo := expand (.go (.imm 0x9)) ++ [.rd 0x068 (some ⟨1, 0⟩)], env := [], onBusError := .stop }
        State.reset with
     | .finished h _ => envGet h.env ⟨1, 0⟩
     | .paused _ _   => none
     | .fault _ _ _  => none) = some 0x0A := by decide

/-- What a host on which an error response is ignored stops with. -/
def ignoringFault (todo : List HostStmt) : Option HostFault :=
  match runHost [0, 0] { todo := todo, env := [], onBusError := .ignore } State.reset with
  | .fault r _ _  => some r
  | .finished _ _ => none
  | .paused _ _   => none

/-- R214, I13: a host that uses the value of a read answered with an error has a fault, in a `POLL` at once and in a `WR` of
the variable; a read whose value is not used has none. -/
theorem test_host_uses_missing_value :
    ignoringFault [.poll 0x078 0x1 0x0] = some .missingValue ∧
      ignoringFault [.rd 0x078 (some ⟨0, 0⟩), .wr 0x000 (.var ⟨0, 0⟩)] = some .undefinedVariable ∧
      ignoringFault [.rd 0x078 none] = none := by decide

/-! ### Witnesses: states and operands that meet the hypotheses of the statements -/

def pMinus1 : Limbs := Limbs.ofNat 0x30644e72e131a029b85045b68181585d2833e84879b9709143e1f593f0000000

/-- A busy state of the invariant, in the last cycle of a MUL. -/
def busyMul : State := latched .mul mont2 mont3

theorem witness_invariant_busy : busyMul.Inv :=
  ⟨by decide, fun _ => ⟨rfl, by decide, .mul, rfl, rfl, by decide⟩, fun h => by cases h⟩

theorem witness_invariant_idle : State.reset.Inv := ⟨by decide, fun h => by (cases h), fun _ => rfl⟩

theorem reference_inv_correct : Config.reference.InvCorrect := by unfold Config.InvCorrect; decide

theorem reference_constants_correct : Config.reference.ConstantsCorrect := by
  unfold Config.ConstantsCorrect; decide +kernel

theorem pMinus1_in_domain : Config.reference.InDomain pMinus1 := by unfold Config.InDomain; decide

theorem witness_EncodingRoundTripBothWays : decodeBytes [8, 0, 0, 0, 0, 0, 0, 0] = .ok .red := by rfl

theorem witness_LegalityFormula :
    legal noEdm 1 = true ∧ legal noEdm 8 = true ∧ decode 8 = .ok .red ∧ legal noEdm 2 = false ∧ legal noEdm 9 = false ∧
      legal noEdm 0x11 = false := ⟨by decide, by decide, rfl, by decide, by decide, by decide⟩

theorem witness_MuleAvailability :
    (∃ t, step State.reset = .next t) ∧ ({ noEdm with p := { noEdm.p with l3 := max64 } } : Config).p.l3 = max64 ∧
      ({ noEdm with p := { noEdm.p with l3 := 0x7FFFFFFFFFFFFFFE } } : Config).edmOk = true := ⟨⟨_, rfl⟩, rfl, by decide⟩

theorem witness_MacResult : 2 ^ 128 - 1 = max64.toNat + max64.toNat * max64.toNat + max64.toNat := by decide
theorem witness_MacxResult : 2 ^ 128 - 2 ^ 64 = max64.toNat + max64.toNat * max64.toNat := by decide
theorem witness_AdcResult : 3 * 2 ^ 64 - 3 = max64.toNat + max64.toNat + max64.toNat := by decide

theorem witness_LimbSumsAreExact :
    (macx max64 max64 max64).2.toNat = 2 ^ 64 - 1 ∧ (adc max64 max64 max64).2.toNat = 2 := by decide

theorem witness_SbbClosedForm :
    (1 : Word).toNat ≤ 1 ∧ ((0 : Word).toNat : Int) - max64.toNat - (2 : Word).toNat < -(2 : Int) ^ 64 ∧
      (sbb 0 max64 1).2 = 1 := by decide

theorem witness_ConditionalSubtractFacts :
    (conditionalSubtract Config.reference.p Config.reference.p).2 = true ∧
      (conditionalSubtract pMinus1 Config.reference.p).2 = false ∧ pMinus1.val < 2 * Config.reference.p.val := by decide

theorem witness_MulIsExactRecurrence : ∃ v, v = Limbs.ofNat (busyMul.cfg.montT4 busyMul.xl busyMul.yl) := ⟨_, rfl⟩
theorem witness_MuleIsExactRecurrence : ∃ v, v = Limbs.ofNat (busyMul.cfg.edmV4 busyMul.xl busyMul.yl) := ⟨_, rfl⟩

theorem witness_MulIsMontgomeryProduct :
    ∃ s : State, s.cfg.wf = true ∧ s.cfg.InvCorrect ∧ s.cfg.InDomain s.yl ∧ ¬ s.cfg.InDomain s.xl :=
  ⟨latched .mul Config.reference.p pMinus1, by decide, reference_inv_correct, pMinus1_in_domain,
    by unfold Config.InDomain; decide⟩

theorem witness_MuleIsMontgomeryProduct :
    ∃ s : State, s.cfg.wf = true ∧ s.cfg.InvCorrect ∧ s.cfg.InDomain s.xl ∧ ¬ s.cfg.InDomain s.yl :=
  ⟨latched .mule pMinus1 Config.reference.p, by decide, reference_inv_correct, pMinus1_in_domain,
    by unfold Config.InDomain; decide⟩

theorem witness_MuleEqualsMul : ∃ s : State, s.cfg.wf = true ∧ s.cfg.InvCorrect ∧ s.cfg.InDomain s.xl :=
  ⟨latched .mul pMinus1 pMinus1, by decide, reference_inv_correct, pMinus1_in_domain⟩

theorem witness_MulCommutes : busyMul.cfg.InvCorrect ∧ busyMul.xl ≠ busyMul.yl := ⟨reference_inv_correct, by decide⟩

theorem witness_ZeroOperandGivesZero :
    busyMul.cfg.wf = true ∧ (latched .mul Limbs.zero mont2).xl = Limbs.zero ∧
      (latched .mule mont2 Limbs.zero).yl = Limbs.zero := by decide

theorem witness_MontgomeryConversions :
    Config.reference.wf = true ∧ Config.reference.ConstantsCorrect ∧ Config.reference.InDomain Config.reference.r2 ∧
      ∀ y ∈ [Config.reference.r2, ⟨1, 0, 0, 0⟩, Config.reference.r1],
        (latched .mul Config.reference.r2 y).cfg = Config.reference ∧
          (latched .mul Config.reference.r2 y).xl = Config.reference.r2 ∧ (latched .mul Config.reference.r2 y).yl = y :=
  ⟨by decide, reference_constants_correct, by unfold Config.InDomain; decide, fun _ _ => ⟨rfl, rfl, rfl⟩⟩

theorem witness_MuleDiffersOutOfDomain :
    ∃ s : State, s.cfg = Config.reference ∧ s.xl = Limbs.ofNat (2 ^ 256 - 1) ∧ s.yl = Limbs.ofNat (2 ^ 256 - 1) :=
  ⟨latched .mul (Limbs.ofNat (2 ^ 256 - 1)) (Limbs.ofNat (2 ^ 256 - 1)), rfl, rfl, rfl⟩

/-- An ADC in two instances that share no `P`, with other values in everything ADC does not read. -/
theorem witness_ResultDependsOnOperandsOnly :
    ∃ s s' : State, s.cfg.p ≠ s'.cfg.p ∧ s.xl.l0 = s'.xl.l0 ∧ s.xl.l1 = s'.xl.l1 ∧ s.xl.l2 = s'.xl.l2 ∧
      s.xl.l3 ≠ s'.xl.l3 ∧ s.yl ≠ s'.yl :=
  ⟨latched .adc ⟨1, 2, 3, 4⟩ mont2, { latched .adc ⟨1, 2, 3, 5⟩ mont3 with cfg := noEdm }, by decide⟩

/-- The first and the last offset of each range of reserved offsets. -/
theorem witness_WindowReads :
    ∀ off ∈ [0x078, 0x0A8, 0x0B8, 0x120, 0x1F8],
      off < 0x200 ∧ off % 8 = 0 ∧ (off = 0x078 ∨ (0x0A8 ≤ off ∧ off ≤ 0x0B8) ∨ 0x120 ≤ off) := by decide

/-- The first and the last offset of each range of read-only and reserved offsets. -/
theorem witness_WindowWrites :
    ∀ off ∈ [0x040, 0x058, 0x070, 0x0B8, 0x0C0, 0x1F8],
      off < 0x200 ∧ off % 8 = 0 ∧ ((0x040 ≤ off ∧ off ≤ 0x058) ∨ (0x070 ≤ off ∧ off ≤ 0x0B8) ∨ 0x0C0 ≤ off) := by decide

theorem witness_BusErrorExactly :
    inWindow Config.reference (.read 0x1FF 8) ∧ busErrorCondition Config.reference (.read 0x1FF 8) ∧
      inWindow Config.reference (.write 0x118 8 0) ∧ busErrorCondition Config.reference (.write 0x118 8 0) ∧
      inWindow Config.reference (.read 0x000 4) ∧ busErrorCondition Config.reference (.read 0x000 4) ∧
      inWindow Config.reference (.read 0x118 8) ∧ ¬ busErrorCondition Config.reference (.read 0x118 8) := by
  simp [inWindow, busErrorCondition, undefinedOffset, readOnlyOffset, accessAddr, windowSize, Config.reference]

theorem witness_WindowIsLittleEndian : (hostAccess (.read 0x118 8) State.reset).resp = .data Config.reference.r3.l3 := by
  decide

theorem witness_OutsideWindowIsIgnored :
    ¬ inWindow Config.reference (.read 0x200 8) ∧ ¬ inWindow { Config.reference with base := 0x200 } (.read 0x1FF 8) := by
  simp [inWindow, accessAddr, windowSize, Config.reference]

theorem witness_CommandWriteOutcomes :
    busyMul.busy = true ∧ State.reset.busy = false ∧ legal State.reset.cfg 0x9 = false ∧
      legal State.reset.cfg 0x8 = true := by decide

/-- Also with a host access at the edge. -/
theorem witness_StepRunsDecodedCommand :
    (present (.read 0x068 8) busyMul).cfg.wf = true ∧ busyMul.busy = true ∧ busyMul.cnt = 1 ∧
      decode (busyMul.opl.setWidth 64) = .ok .mul ∧
      ∃ t, exec .mul { present (.read 0x068 8) busyMul with cnt := 0, inputs := [] } = .next t :=
  ⟨by decide, rfl, rfl, rfl, _, rfl⟩

theorem witness_PlacedCommandRuns : State.reset.cfg.wf = true ∧ Instr.wf State.reset.cfg .mule = true := by decide

theorem witness_EngineCountsDown :
    ∃ s : State, s.cfg.wf = true ∧ s.inputs = [{ rst := false, access := none }] ∧ s.busy = true ∧ s.cnt = 0 + 2 :=
  ⟨{ busyMul with cnt := 2, inputs := [{ rst := false, access := none }] }, by decide, rfl, rfl, rfl⟩

/-- A latency of 3, with a dropped write, a read and an idle edge before and at the completion. -/
theorem witness_CompletesExactlyLatEdgesLater :
    ∃ (s : State) (accs : List (Option Access)), s.cfg.wf = true ∧ Instr.wf s.cfg .geq = true ∧ s.busy = false ∧
      accs.length = s.cfg.latOf .geq ∧ accs.getLast? = some none ∧
      s.inputs = cmdWriteEdge s.cfg (encode .geq) :: (accs.map (fun a => { rst := false, access := a }) ++ []) :=
  ⟨{ State.resetIn { Config.reference with lat := ⟨1, 1, 1, 1, 1, 1, 3, 1⟩ } with
      inputs := [cmdWriteEdge Config.reference (encode .geq), { rst := false, access := some (.write 0x060 8 1) },
        { rst := false, access := some (.read 0x040 8) }, { rst := false, access := none }] },
    [some (.write 0x060 8 1), some (.read 0x040 8), none], by decide, rfl, rfl, rfl, rfl, rfl⟩

theorem witness_CompletionComesBeforeAccess :
    busyMul.cfg.wf = true ∧ busyMul.busy = true ∧ busyMul.cnt = 1 ∧ busyMul.opl = Instr.opcode .mul ∧
      legal busyMul.cfg 0x7 = true ∧ legal busyMul.cfg 0x9 = false := by decide

theorem witness_ResetEdgeClearsEverything :
    ∃ s : State, s.cfg.wf = true ∧ s.inputs = [{ rst := true, access := some (.read 0x1FF 8) }] ∧
      inWindow s.cfg (.read 0x1FF 8) :=
  ⟨{ busyMul with inputs := [{ rst := true, access := some (.read 0x1FF 8) }] }, by decide, rfl,
    by show inWindow Config.reference _; simp [inWindow, accessAddr, windowSize, Config.reference]⟩

theorem witness_IllFormedModulusRefused :
    ∃ s : State, (∀ i : Instr, 1 ≤ s.cfg.latOf i) ∧ s.cfg.base % 0x200 = 0 ∧ s.cfg.p.val % 2 = 0 :=
  ⟨State.resetIn { Config.reference with p := ⟨4, 0, 0, 0⟩ }, fun i => by cases i <;> decide, rfl, by decide⟩

theorem witness_IllegalOpenParametersRefused :
    (State.resetIn { Config.reference with lat := ⟨1, 1, 1, 1, 1, 1, 1, 0⟩ }).cfg.latOf .red = 0 ∧
      (State.resetIn { Config.reference with base := 8 }).cfg.base % 0x200 ≠ 0 := by decide

/-- A reset edge and a completing edge both answer: the hypothesis of the statements about every step. -/
theorem witness_step_answers :
    (∃ t, step { busyMul with inputs := [{ rst := true, access := none }] } = .next t) ∧
      (∃ t, step { busyMul with inputs := [] } = .next t) := ⟨⟨_, rfl⟩, ⟨_, rfl⟩⟩

theorem witness_ResetValuesAreZero : ∃ t, step State.reset = .next t := ⟨_, rfl⟩

theorem witness_ConstantsNeverChange : ∃ t, step { busyMul with inputs := [{ rst := true, access := none }] } = .next t :=
  witness_step_answers.1

theorem witness_InvariantAtReset : noEdm.wf = true := by decide

theorem witness_StepKeepsInvariant : busyMul.Inv ∧ ∃ t, step busyMul = .next t := ⟨witness_invariant_busy, _, rfl⟩

theorem witness_EveryEdgeAnswers : busyMul.Inv ∧ State.reset.Inv := ⟨witness_invariant_busy, witness_invariant_idle⟩

theorem witness_ResultChangesOnlyAtCompletion : ∃ t, step busyMul = .next t ∧ t.z ≠ busyMul.z := ⟨_, rfl, by decide⟩

/-- Idle after a GEQ of `mont(3)` and `mont(2)` that answered 1. -/
def idleAfterGeq : State :=
  { latched .geq mont3 mont2 with busy := false, cnt := 0, done := true, z := ⟨1, 0, 0, 0⟩, flag := true }

/-- Idle with a result, at an illegal command; and busy, at the completion. -/
theorem witness_StepKeepsOneResult :
    (idleAfterGeq.Inv ∧ idleAfterGeq.OneResult ∧ ∃ t, step (present (.write 0x060 8 0x9) idleAfterGeq) = .next t) ∧
      (busyMul.Inv ∧ busyMul.OneResult ∧ ∃ t, step busyMul = .next t ∧ t.busy = false) :=
  ⟨⟨⟨by decide, fun h => by (cases h), fun _ => rfl⟩, fun _ => .inr ⟨.geq, rfl, rfl, by decide⟩, _, rfl⟩,
    witness_invariant_busy, fun h => by (cases h), _, rfl, by decide⟩

/-- Neither an idle state with a Z that its command does not give, nor a nonzero Z before the first command, has the property. -/
theorem test_one_result_is_tied_to_the_command :
    ¬ ({ idleAfterGeq with z := ⟨2, 0, 0, 0⟩ } : State).OneResult ∧ ¬ ({ State.reset with flag := true } : State).OneResult := by
  refine ⟨fun h => ?_, fun h => ?_⟩
  · obtain ⟨h, -⟩ | ⟨i, -, ho, h⟩ := h rfl
    · exact absurd h (by decide)
    · cases i <;> revert ho h <;> decide
  · obtain ⟨-, -, h⟩ | ⟨i, -, ho, -⟩ := h rfl
    · exact absurd h (by decide)
    · cases i <;> revert ho <;> decide

theorem witness_OperandsChangeOnlyByHostWrite :
    ∃ t, step (present (.write 0x038 8 5) busyMul) = .next t ∧ t.y ≠ busyMul.y := ⟨_, rfl, by decide⟩

theorem witness_LatchesChangeOnlyAtAcceptance :
    ∃ t, step (present (.write 0x060 8 0x8) busyMul) = .next t ∧ t.opl ≠ busyMul.opl := ⟨_, rfl, by decide⟩

theorem witness_ErrorBitsAreSticky :
    ∃ t, step (present (.write 0x068 8 0x8) { State.reset with ill := true, drop := true }) = .next t ∧
      t.ill = false ∧ t.drop = true := ⟨_, rfl, by decide⟩

theorem witness_OneConditionPerAccess :
    inWindow Config.reference (.write 0x060 8 0x9) ∧ inWindow Config.reference (.write 0x040 8 0x9) ∧
      busErrorCondition Config.reference (.write 0x040 8 0x9) := by
  simp [inWindow, busErrorCondition, undefinedOffset, readOnlyOffset, accessAddr, windowSize, Config.reference]

/-- Each clause's further hypotheses: an error beside a set ILL, a CMD write while busy that raises DROP, and an illegal one while
idle that raises ILL. -/
theorem witness_OneConditionPerAccess_clauses :
    (hostAccess (.write 0x040 8 0x9) { State.reset with ill := true }).resp = .error ∧
      (busyMul.busy = true ∧ busyMul.drop = false ∧ (hostAccess (.write 0x060 8 0x9) busyMul).drop = true) ∧
      (State.reset.busy = false ∧ legal State.reset.cfg 0x9 = false ∧ State.reset.ill = false ∧
        (hostAccess (.write 0x060 8 0x9) State.reset).ill = true) := by decide

theorem witness_StepRefinesUntimedEvents :
    busyMul.Inv ∧ (∃ t, step (present (.read 0x040 8) busyMul) = .next t ∧ t.busy = false) ∧
      ∃ t, step { busyMul with inputs := [{ rst := true, access := none }] } = .next t :=
  ⟨witness_invariant_busy, ⟨_, rfl, by decide⟩, _, rfl⟩

end Sys2Proof.Tests
end

/-! ## Proofs: the instance (00_scope.md section 3)

When a configuration is well formed and a step refuses it, what `EDM_OK` decides, and that no step changes a constant. -/

namespace Sys2Proof

/-- Only limb 0 has an odd weight in the value (00_scope.md R11). -/
theorem Limbs.getLsbD_zero_eq_true_iff (v : Limbs) : v.l0.getLsbD 0 = true ↔ v.val % 2 = 1 := by
  have hl0 : v.l0.getLsbD 0 = true ↔ v.l0.toNat % 2 = 1 := by
    simp [BitVec.getLsbD, Nat.testBit_zero]
  rw [hl0, Limbs.val]
  omega

theorem Config.lat_wf_iff (c : Config) : c.lat.wf = true ↔ ∀ i : Instr, 1 ≤ c.latOf i := by
  simp only [Latency.wf, Bool.and_eq_true, decide_eq_true_eq]
  constructor
  · rintro ⟨⟨⟨⟨⟨⟨⟨hmul, hmule⟩, hmac⟩, hmacx⟩, hadc⟩, hsbb⟩, hgeq⟩, hred⟩ i
    cases i <;> assumption
  · intro h
    exact ⟨⟨⟨⟨⟨⟨⟨h .mul, h .mule⟩, h .mac⟩, h .macx⟩, h .adc⟩, h .sbb⟩, h .geq⟩, h .red⟩

/-- The checks at elaboration in the words of 00_scope.md R6 and R8. -/
theorem Config.wf_iff (c : Config) :
    c.wf = true ↔ (c.p.val % 2 = 1 ∧ 3 ≤ c.p.val ∧ c.p.val < 2 ^ 255) ∧
      (∀ i : Instr, 1 ≤ c.latOf i) ∧ c.base % 0x200 = 0 := by
  simp only [Config.wf, Bool.and_eq_true, decide_eq_true_eq, Limbs.getLsbD_zero_eq_true_iff, Config.lat_wf_iff,
    and_assoc]

theorem Config.edmOk_iff (c : Config) : c.edmOk = true ↔ c.p.l3.toNat ≤ 0x7FFFFFFFFFFFFFFE := by
  simp [Config.edmOk, BitVec.le_def]

/-- The legality of a word that decodes is its command's (30_encoding.md R82). -/
theorem legal_of_decode {v : Word} {i : Instr} (c : Config) (h : decode v = .ok i) : legal c v = i.wf c := by
  simp only [legal, h]

/-- The word of MULE is legal exactly where `EDM_OK` is 1 (43_edmsm_mul.md R192). -/
theorem legal_muleWord (c : Config) : legal c 2 = c.edmOk :=
  legal_of_decode (i := .mule) c rfl

namespace Machine

theorem readReg_caps (s : State) :
    readReg .caps s = if s.cfg.p.l3.toNat ≤ 0x7FFFFFFFFFFFFFFE then 1 else 0 := by
  simp only [readReg, wordOfBool, Config.edmOk_iff]

theorem engineEdge_keeps_cfg {s t : State} (h : engineEdge s = .next t) : t.cfg = s.cfg := by
  obtain ⟨-, rfl⟩ | ⟨-, n, -, rfl⟩ | ⟨-, -, i, -, rfl⟩ := engineEdge_cases h
  · rfl
  · rfl
  · rfl

/-- No step, reset included, changes a constant of the instance (10_state.md R33). -/
theorem step_keeps_cfg {s t : State} (h : step s = .next t) : t.cfg = s.cfg := by
  obtain ⟨-, ⟨-, rfl⟩ | ⟨-, u, hu, rfl⟩⟩ := step_cases h
  · rfl
  · obtain ⟨hcfg, -⟩ := hostPart_keeps (nextEdge s).access u
    exact hcfg.trans ((engineEdge_keeps_cfg hu).trans (takeEdge_cfg s))

/-- The engine has a meaning for every command, so what it stops with is never a refusal (60_exceptions.md R210). -/
theorem engineEdge_ne_refused (s : State) (r : Refusal) : engineEdge s ≠ .refused r := by
  intro h
  simp only [engineEdge, exec_eq] at h
  split at h
  · split at h
    · cases h
    · split at h
      · cases h
      · cases h
    · cases h
  · cases h

theorem clockEdge_ne_refused (e : Edge) (s : State) (r : Refusal) : clockEdge e s ≠ .refused r := by
  intro h
  simp only [clockEdge] at h
  split at h
  · cases h
  · split at h
    · cases h
    · cases h
    · next hr => exact engineEdge_ne_refused s _ hr

/-- A step refuses exactly the configurations that are not well formed, whatever the rest of the state is. -/
theorem step_refused_iff (s : State) : step s = .refused .configurationRefused ↔ ¬ s.cfg.wf = true := by
  constructor
  · intro h hwf
    rw [step, if_pos hwf] at h
    exact clockEdge_ne_refused _ _ _ h
  · intro h
    rw [step, if_neg h]

/-- Settles O4: the bound on `P[3]` is `EDM_OK` read as naturals, MULE's word and CAPS follow it, and a step keeps the
whole configuration. -/
theorem muleAvailability : Obligations.MuleAvailability := by
  refine ⟨fun c => ⟨c.edmOk_iff, ?_⟩, readReg_caps, fun s t h => ?_, by decide, fun c hp => ?_⟩
  · rw [legal_muleWord, c.edmOk_iff]
  · rw [step_keeps_cfg h]
  · rw [Config.edmOk, hp]
    decide

/-- Settles O40: with legal open parameters, well-formedness is the three checks of R6 on `P`, and a step refuses exactly
where it fails. -/
theorem illFormedModulusRefused : Obligations.IllFormedModulusRefused := by
  intro s hlat hbase
  rw [step_refused_iff, Config.wf_iff, and_iff_left ⟨hlat, hbase⟩]

end Machine

end Sys2Proof

/-! ## Proofs: the values at reset (10_state.md R33) -/

namespace Sys2Proof

namespace Machine

/-- The model's reset state is the reset state of its own instance (10_state.md R33), so it has the values stated for every instance. -/
theorem reset_eq_resetIn_cfg : State.reset = State.resetIn State.reset.cfg := by
  rw [State.reset, resetIn_cfg]

/-- Settles O39: a step keeps the configuration, and each register of `State.resetIn` reads 0 in every instance, the one
of `State.reset` among them. -/
theorem resetValuesAreZero : Obligations.ResetValuesAreZero :=
  ⟨fun _ _ h => step_keeps_cfg h, fun c =>
    ⟨resetIn_x c, resetIn_y c, resetIn_z c, resetIn_busy c, resetIn_done c, resetIn_flag c, resetIn_ill c,
      resetIn_drop c, resetIn_xl c, resetIn_yl c, resetIn_opl c, resetIn_cnt c, resetIn_cfg c, reset_eq_resetIn_cfg⟩⟩

end Machine

end Sys2Proof

/-! ## Proofs: the register window (20_memory.md section 2)

Which register an access names is settled by the instance alone (`hostAccess_route`); what a read answers and that it can
be repeated follow from it. The bytes of the window are those of its registers (`windowByte_regOffset_add`), and the bytes
of a limb are those of the 256-bit value it stands in (`byteOfWord_get`). -/

namespace Sys2Proof

/-- Byte `k` of a word as a quotient (20_memory.md R55). -/
theorem byteOfWord_eq_ofNat (v : Word) (k : Nat) : byteOfWord v k = BitVec.ofNat 8 (v.toNat / 2 ^ (8 * k)) := by
  rw [byteOfWord, BitVec.extractLsb', Nat.shiftRight_eq_div_pow]

/-- Byte `k` of limb `i` is byte `8i + k` of the 256-bit value (20_memory.md R55). -/
theorem byteOfWord_get (n : Limbs) (i : Fin 4) {k : Nat} (hk : k < 8) :
    byteOfWord (n.get i) k = BitVec.ofNat 8 (n.val / 2 ^ (8 * (8 * i.val + k))) := by
  rw [byteOfWord_eq_ofNat, n.get_toNat i]
  refine BitVec.eq_of_getLsbD_eq fun b hb => ?_
  have hin : b + 8 * k < 64 := by omega
  have hpos : b + 8 * k + 64 * i.val = b + 8 * (8 * i.val + k) := by omega
  simp only [BitVec.getLsbD_ofNat, Nat.testBit_div_two_pow, Nat.testBit_mod_two_pow, hb, hin, hpos, decide_true,
    Bool.true_and]

namespace Machine

/-! ### What an access answers -/

/-- What an access does is settled by the instance: it is not the block's, or a bus error, or eight bytes wide and performed
at one register, in every state of that instance. -/
theorem hostAccess_route (c : Config) (a : Access) :
    (∀ s : State, s.cfg = c → hostAccess a s = { s with resp := .none }) ∨
    (∀ s : State, s.cfg = c → hostAccess a s = raiseBusError s) ∨
    (accessWidth a = 8 ∧ ∃ r : Reg, ∀ s : State, s.cfg = c → hostAccess a s = performAt a r s) := by
  cases hw : windowOffset c (accessAddr a) with
  | none => exact .inl fun s hs => by simp only [hostAccess, hs, hw]
  | some off =>
    by_cases h8 : accessWidth a = 8
    · cases hr : regAt off with
      | none => exact .inr (.inl fun s hs => hostAccess_error (hs ▸ hw) (.inr (.inr hr)))
      | some r => exact .inr (.inr ⟨h8, r, fun s hs => hostAccess_at (hs ▸ hw) h8 hr⟩)
    · exact .inr (.inl fun s hs => hostAccess_error (hs ▸ hw) (.inl h8))

@[simp] theorem readReg_hostRead (q r : Reg) (s : State) : readReg q (hostRead r s) = readReg q s := by
  cases q <;> rfl

theorem hostRead_hostRead (r : Reg) (s : State) : hostRead r (hostRead r s) = hostRead r s := by
  rw [hostRead, readReg_hostRead]
  rfl

/-- A second read of one address answers as the first and changes nothing (20_memory.md R53). -/
theorem hostAccess_read_read (addr width : Nat) (s : State) :
    hostAccess (.read addr width) (hostAccess (.read addr width) s) = hostAccess (.read addr width) s := by
  have hcfg : (hostAccess (.read addr width) s).cfg = s.cfg := (hostAccess_keeps _ s).1
  obtain h | h | ⟨-, r, h⟩ := hostAccess_route s.cfg (.read addr width)
  · rw [h _ hcfg, h s rfl]
  · rw [h _ hcfg, h s rfl]
    rfl
  · rw [h _ hcfg, h s rfl]
    exact hostRead_hostRead r s

/-- An 8-byte read where no register starts is an error (20_memory.md R53). -/
theorem hostAccess_read_undefined (s : State) {off : Nat} (hlt : off < windowSize) (h : undefinedOffset off) :
    hostAccess (.read (s.cfg.base + off) 8) s = raiseBusError s :=
  hostAccess_error (windowOffset_base s.cfg off hlt) (.inr (.inr ((regAt_eq_none_iff off hlt).mpr h)))

/-- Settles O26: each register is read at its own offset, the reserved offsets are where no register starts, and the state
after a read answers the same read again. -/
theorem windowReads : Obligations.WindowReads := by
  intro s
  refine ⟨fun k => ?_, hostAccess_read .cmd s, hostAccess_read .status s, hostAccess_read .caps s,
    hostAccess_read .inv s, fun off hlt _ hres => hostAccess_read_undefined s hlt (.inr hres),
    fun addr => hostAccess_read_read addr 8 s⟩
  exact ⟨hostAccess_read (.x k) s, hostAccess_read (.y k) s, hostAccess_read (.z k) s, hostAccess_read (.p k) s,
    hostAccess_read (.r1 k) s, hostAccess_read (.r2 k) s, hostAccess_read (.r3 k) s⟩

/-! ### The bytes of the window -/

/-- A write carries no data in its answer. -/
theorem hostWrite_resp_ne_data (r : Reg) (w v : Word) (s : State) : (hostWrite r w s).resp ≠ .data v := by
  intro hd
  cases h : writeReg r w s with
  | none => simp [hostWrite, h] at hd
  | some t => simp [hostWrite, h] at hd

/-- An access performed at a register that answers data answers that register's whole value. -/
theorem performAt_data {a : Access} {r : Reg} {s : State} {v : Word} (h : (performAt a r s).resp = .data v) :
    v = readReg r s := by
  cases a with
  | read addr width => exact (Response.data.inj h).symm
  | write addr width w => exact absurd h (hostWrite_resp_ne_data r w v s)

/-- Data is answered to 8-byte accesses only, and is the whole of a register (20_memory.md R55). -/
theorem hostAccess_data {a : Access} {s : State} {v : Word} (h : (hostAccess a s).resp = .data v) :
    accessWidth a = 8 ∧ ∃ r : Reg, v = readReg r s := by
  obtain e | e | ⟨h8, r, e⟩ := hostAccess_route s.cfg a
  · rw [e s rfl] at h
    cases h
  · rw [e s rfl] at h
    cases h
  · rw [e s rfl] at h
    exact ⟨h8, r, performAt_data h⟩

/-- The eight bytes from a register's offset on are the register's own. -/
theorem windowByte_regOffset_add (s : State) (r : Reg) {k : Nat} (hk : k < 8) :
    windowByte s (regOffset r + k) = some (byteOfWord (readReg r s) k) := by
  have halign : regOffset r % 8 = 0 := (regOffset_bounds r).1
  have hmod : (regOffset r + k) % 8 = k := by omega
  rw [windowByte, hmod, Nat.add_sub_cancel, regAt_regOffset]
  rfl

/-- A group of four registers, eight bytes apart, that hold the limbs of `n` shows the bytes of `n` in little-endian
order (20_memory.md R55). -/
theorem windowByte_group {s : State} {f : Fin 4 → Reg} {first : Nat} {n : Limbs}
    (hoff : ∀ i, regOffset (f i) = first + 8 * i.val) (hval : ∀ i, readReg (f i) s = n.get i) {j : Nat} (hj : j < 32) :
    windowByte s (first + j) = some (BitVec.ofNat 8 (n.val / 2 ^ (8 * j))) := by
  obtain ⟨i, k, hk, rfl⟩ : ∃ (i : Fin 4) (k : Nat), k < 8 ∧ j = 8 * i.val + k :=
    ⟨⟨j / 8, by omega⟩, j % 8, by omega, (Nat.div_add_mod j 8).symm⟩
  rw [← Nat.add_assoc, ← hoff i, windowByte_regOffset_add s (f i) hk, hval i, byteOfWord_get n i hk]

/-- Settles O30: an access sees a whole register or nothing, a register's bytes are quotients of its value, and the seven
limb groups show the bytes of their 256-bit values. -/
theorem windowIsLittleEndian : Obligations.WindowIsLittleEndian := by
  intro s
  refine ⟨fun _ _ h => hostAccess_data h, fun r k hk => ?_, fun j hj => ?_⟩
  · rw [windowByte_regOffset_add s r hk, byteOfWord_eq_ofNat]
  · exact ⟨windowByte_group (f := .x) (fun _ => rfl) (fun _ => rfl) hj,
      windowByte_group (f := .y) (fun _ => rfl) (fun _ => rfl) hj,
      windowByte_group (f := .z) (fun _ => rfl) (fun _ => rfl) hj,
      windowByte_group (f := .p) (fun _ => rfl) (fun _ => rfl) hj,
      windowByte_group (f := .r1) (fun _ => rfl) (fun _ => rfl) hj,
      windowByte_group (f := .r2) (fun _ => rfl) (fun _ => rfl) hj,
      windowByte_group (f := .r3) (fun _ => rfl) (fun _ => rfl) hj⟩

end Machine

end Sys2Proof

/-! ## Proofs: the command word and the pseudo-instructions (30_encoding.md sections 1 and 5)

The words that decode are the eight `encode i` (`decode_eq_ok_iff`), so legality is a matter of one command: its opcode is 1
to 8 (`exists_opcode_eq_iff`) and the instance has it (`Instr.wf_iff`). -/

namespace Sys2Proof

/-- `OP` is the word modulo 16 (30_encoding.md R80). -/
@[simp] theorem opField_toNat (v : Word) : (opField v).toNat = v.toNat % 16 := by
  simp [opField]

/-- `RSV` is the word's quotient by 16 (30_encoding.md R80). -/
@[simp] theorem rsvField_toNat (v : Word) : (rsvField v).toNat = v.toNat / 16 := by
  rw [rsvField, BitVec.extractLsb'_toNat, Nat.shiftRight_eq_div_pow]
  omega

theorem rsvField_eq_zero_iff (v : Word) : rsvField v = 0 ↔ v.toNat / 16 = 0 := by
  rw [← rsvField_toNat, ← BitVec.toNat_inj]
  rfl

@[simp] theorem encode_toNat (i : Instr) : (encode i).toNat = i.opcode.toNat := by
  cases i <;> rfl

@[simp] theorem decode_encode (i : Instr) : decode (encode i) = .ok i := by
  cases i <;> rfl

/-- The words that decode are the eight command words: no word is an alias of another (30_encoding.md R82). -/
theorem decode_eq_ok_iff {v : Word} {i : Instr} : decode v = .ok i ↔ v = encode i := by
  constructor
  · intro h
    by_cases hrsv : rsvField v = 0
    · have hop : opField v = i.opcode := opcode_of_decodeOp (by simpa only [decode, if_pos hrsv] using h)
      have hdiv : v.toNat / 16 = 0 := (rsvField_eq_zero_iff v).mp hrsv
      apply BitVec.eq_of_toNat_eq
      rw [encode_toNat, ← hop, opField_toNat]
      omega
    · rw [decode, if_neg hrsv] at h
      cases h
  · rintro rfl
    exact decode_encode i

/-- The opcode map has a command for 1 to 8 and for nothing else (30_encoding.md R81). -/
theorem exists_opcode_eq_iff (op : BitVec 4) : (∃ i : Instr, i.opcode = op) ↔ 1 ≤ op.toNat ∧ op.toNat ≤ 8 := by
  constructor
  · rintro ⟨i, rfl⟩
    cases i <;> decide
  · have all : ∀ op : BitVec 4, 1 ≤ op.toNat ∧ op.toNat ≤ 8 → (decodeOp op).toOption.isSome = true := by decide
    intro h
    cases hd : decodeOp op with
    | ok i => exact ⟨i, (opcode_of_decodeOp hd).symm⟩
    | error e => simpa [hd, Except.toOption] using all op h

/-- The only command that an instance may lack is MULE, opcode 2 (30_encoding.md R82). -/
theorem Instr.wf_iff (c : Config) (i : Instr) : i.wf c = true ↔ ¬ (i.opcode.toNat = 2 ∧ c.edmOk = false) := by
  cases i <;> simp [Instr.wf, Instr.opcode]

/-- A word is legal exactly where it is the word of a command that the instance has. -/
theorem legal_iff (c : Config) (v : Word) : legal c v = true ↔ ∃ i : Instr, v = encode i ∧ i.wf c = true := by
  constructor
  · intro h
    cases hd : decode v with
    | ok i => exact ⟨i, decode_eq_ok_iff.mp hd, legal_of_decode c hd ▸ h⟩
    | error e => simp [legal, hd] at h
  · rintro ⟨i, rfl, hwf⟩
    rw [legal_of_decode c (decode_encode i), hwf]

/-- The formula of 30_encoding.md R82. -/
theorem legal_iff_fields (c : Config) (v : Word) :
    legal c v = true ↔
      v.toNat / 16 = 0 ∧ 1 ≤ v.toNat % 16 ∧ v.toNat % 16 ≤ 8 ∧ ¬ (v.toNat % 16 = 2 ∧ c.edmOk = false) := by
  rw [legal_iff]
  constructor
  · rintro ⟨i, rfl, hwf⟩
    obtain ⟨hlo, hhi⟩ := (exists_opcode_eq_iff i.opcode).mp ⟨i, rfl⟩
    have hmod : i.opcode.toNat % 16 = i.opcode.toNat := Nat.mod_eq_of_lt i.opcode.isLt
    rw [encode_toNat, hmod]
    exact ⟨by omega, hlo, hhi, (Instr.wf_iff c i).mp hwf⟩
  · rintro ⟨hrsv, hlo, hhi, hmule⟩
    rw [← opField_toNat] at hlo hhi hmule
    obtain ⟨i, hi⟩ := (exists_opcode_eq_iff (opField v)).mpr ⟨hlo, hhi⟩
    rw [← hi] at hmule
    refine ⟨i, decode_eq_ok_iff.mp ?_, (Instr.wf_iff c i).mpr hmule⟩
    rw [decode, if_pos ((rsvField_eq_zero_iff v).mpr hrsv), ← hi, decodeOp_opcode]

/-- Settles O3: a legal word is the word of a command that the instance has, and a command has one word. -/
theorem legalityFormula : Obligations.LegalityFormula :=
  ⟨legal_iff_fields, fun _ _ _ _ _ _ hv hw => (decode_eq_ok_iff.mp hv).trans (decode_eq_ok_iff.mp hw).symm⟩

namespace Machine

/-- Limb `k` of a 256-bit literal as a quotient (30_encoding.md R90). -/
theorem wideLimb_lit (n : BitVec 256) (k : Fin 4) :
    wideLimb (.lit n) k = .imm (BitVec.ofNat 64 (n.toNat / 2 ^ (64 * k.val))) := by
  rw [wideLimb, BitVec.extractLsb', Nat.shiftRight_eq_div_pow]

/-- MMUL is the five other expansions in a row (30_encoding.md R90). -/
theorem expand_mmul (a b : WideValue) (z : Nat) :
    expand (.mmul a b z) =
      expand (.ldx a) ++ expand (.ldy b) ++ expand (.goCmd .mul) ++ expand .wait ++ expand (.rdz z) := rfl

/-- Settles O54: the offsets of the expansions are those of the registers they name, and a literal's limbs are its
quotients. -/
theorem pseudoInstructionExpansions : Obligations.PseudoInstructionExpansions :=
  ⟨fun _ => rfl, fun _ => rfl, fun _ _ _ _ => rfl, fun _ => rfl, fun _ => rfl, rfl, fun _ => rfl, rfl, expand_mmul,
    wideLimb_lit, fun _ _ => rfl⟩

end Machine

end Sys2Proof

/-! ## Proofs: the scalar commands (40_limb_primitives.md sections 1 to 4)

A command's next state is its result put in place (`exec_of_commandResult`). The result of MAC, MACX and ADC depends on
their exact sum alone (`pairResult_of_exact`), that of SBB on its 128-bit intermediate alone (`sbbResult_eq`). -/

namespace Sys2Proof

namespace Machine

/-- The completion of a command written out field by field (30_encoding.md R86). -/
theorem exec_of_commandResult {i : Instr} {s : State} {z : Limbs} {f : Bool}
    (h : commandResult s.cfg i s.xl s.yl = (z, f)) :
    exec i s = .next { s with z := z, flag := f, busy := false, done := true } := by
  rw [exec_eq, h]
  rfl

/-- Two limbs that make up `n` exactly are the halves of `n`, and `FLAG` says whether the high half is nonzero
(10_state.md R28, 30_encoding.md R84). -/
theorem pairResult_of_exact {lo hi : Word} {n : Nat} (h : lo.toNat + 2 ^ 64 * hi.toNat = n) :
    (pairResult lo hi, flagOfHigh hi) =
      (⟨BitVec.ofNat 64 (n % 2 ^ 64), BitVec.ofNat 64 (n / 2 ^ 64), 0, 0⟩, decide (n / 2 ^ 64 ≠ 0)) := by
  have hlt := lo.isLt
  have hlo : n % 2 ^ 64 = lo.toNat := by omega
  have hhi : n / 2 ^ 64 = hi.toNat := by omega
  have hzero : hi ≠ 0 ↔ hi.toNat ≠ 0 := by rw [ne_eq, ← BitVec.toNat_inj, zero_toNat]
  simp only [pairResult, flagOfHigh, hlo, hhi, hzero, BitVec.ofNat_toNat, BitVec.setWidth_eq]

/-- The 128-bit intermediate of `sbb` (40_limb_primitives.md R116). -/
def sbbSum (a b borrow : Word) : BitVec 128 :=
  0x10000000000000000#128 + zext128 a - zext128 b - zext128 borrow

/-- The intermediate is the integer `2^64 + a − b − borrow` reduced modulo `2^128`, also for a borrow of 2 or more
(40_limb_primitives.md R116). -/
theorem sbbSum_toNat_cast (a b borrow : Word) :
    ((sbbSum a b borrow).toNat : Int) = ((2 : Int) ^ 64 + a.toNat - b.toNat - borrow.toNat) % (2 : Int) ^ 128 := by
  have ha := a.isLt
  have hb := b.isLt
  have hk := borrow.isLt
  rw [sbbSum, sbb_sum_toNat]
  omega

theorem lo64_eq_ofNat (s : BitVec 128) : lo64 s = BitVec.ofNat 64 (s.toNat % 2 ^ 64) := by
  rw [← lo64_toNat, BitVec.ofNat_toNat, BitVec.setWidth_eq]

theorem hi64_eq_zero_iff (s : BitVec 128) : hi64 s = 0 ↔ s.toNat / 2 ^ 64 = 0 := by
  rw [← BitVec.toNat_inj, hi64_toNat, zero_toNat]

/-- The borrow out as a limb and as `FLAG` (10_state.md R28). -/
theorem flagOfBorrow_ite (p : Prop) [Decidable p] : flagOfBorrow (if p then 1 else 0) = decide p := by
  by_cases hp : p <;> simp [flagOfBorrow, hp]

/-- The difference is the low half of the intermediate, and there is a borrow out exactly where the high half is 0
(40_limb_primitives.md R116, R117). -/
theorem sbbResult_eq (a b borrow : Word) {n : Nat} (hn : n = (sbbSum a b borrow).toNat) :
    sbbResult a b borrow =
      (⟨BitVec.ofNat 64 (n % 2 ^ 64), if n / 2 ^ 64 = 0 then 1 else 0, 0, 0⟩, decide (n / 2 ^ 64 = 0)) := by
  simp only [hn, ← lo64_eq_ofNat, ← hi64_eq_zero_iff, ← flagOfBorrow_ite]
  rfl

end Machine

/-- Settles O5: MAC's two limbs make up its sum exactly. -/
theorem macResult : Obligations.MacResult :=
  ⟨rfl, fun _ _ hn =>
    Machine.exec_of_commandResult (Machine.pairResult_of_exact ((Machine.mac_exact _ _ _ _).trans hn.symm))⟩

/-- Settles O6: MACX's two limbs make up its sum exactly. -/
theorem macxResult : Obligations.MacxResult :=
  ⟨rfl, fun _ _ hn =>
    Machine.exec_of_commandResult (Machine.pairResult_of_exact ((Machine.macx_exact _ _ _).trans hn.symm))⟩

/-- Settles O7: ADC's two limbs make up its sum exactly. -/
theorem adcResult : Obligations.AdcResult :=
  ⟨rfl, fun _ _ hn =>
    Machine.exec_of_commandResult (Machine.pairResult_of_exact ((Machine.adc_exact _ _ _).trans hn.symm))⟩

/-- Settles O9: the number is the 128-bit intermediate, of which SBB keeps the low half and whether the high half is 0. -/
theorem sbbResult : Obligations.SbbResult :=
  ⟨rfl, fun s =>
    ⟨(Machine.sbbSum s.xl.l0 s.xl.l1 s.xl.l2).toNat, Machine.sbbSum_toNat_cast _ _ _,
      Machine.exec_of_commandResult (Machine.sbbResult_eq _ _ _ rfl)⟩⟩

end Sys2Proof

/-! ## Proofs: the comparison and the reduction (41_compare_reduce.md sections 1 and 2)

The comparison loop decides the order of the two values (`greaterOrEqual_eq`) and the conditional subtraction is exact
(`conditionalSubtract_eq`); here each is put into the layout of a result, which a command writes as it stands
(`exec_of_commandResult`). -/

namespace Sys2Proof

namespace Machine

/-- `[g ? 1 : 0, 0, 0, 0]` for a comparison `g` (30_encoding.md R84). -/
theorem boolResult_decide (q : Prop) [Decidable q] : boolResult (decide q) = ⟨if q then 1 else 0, 0, 0, 0⟩ := by
  simp only [boolResult, wordOfBool, decide_eq_true_eq]

/-- GEQ's result depends on the order of the two values alone (41_compare_reduce.md R140, R141). -/
theorem geqResult_eq (a b : Limbs) :
    geqResult a b = (⟨if b.val ≤ a.val then 1 else 0, 0, 0, 0⟩, decide (b.val ≤ a.val)) := by
  simp only [geqResult, flagOfCompare, greaterOrEqual_eq, boolResult_decide]

/-- The vector and the bit of a conditional subtraction, each as a function of the values (41_compare_reduce.md R142). -/
theorem conditionalSubtract_eq_mk (a p : Limbs) :
    conditionalSubtract a p =
      (if p.val ≤ a.val then Limbs.ofNat (a.val - p.val) else a, decide (p.val ≤ a.val)) := by
  rw [conditionalSubtract_eq]
  by_cases h : p.val ≤ a.val
  · simp only [h, if_true, decide_true]
  · simp only [h, if_false, decide_false]

/-- RED's result is the conditional subtraction of `P`, with the bit as `FLAG` (10_state.md R28, 41_compare_reduce.md
R143). -/
theorem redResult_eq_conditionalSubtract (c : Config) (a : Limbs) : redResult c a = conditionalSubtract a c.p := rfl

end Machine

/-- Settles O11: GEQ's loop over the limbs decides the order of the two 256-bit values. -/
theorem geqResult : Obligations.GeqResult :=
  ⟨rfl, fun _ => Machine.exec_of_commandResult (Machine.geqResult_eq _ _)⟩

/-- Settles O12: RED subtracts `P` once and exactly where `X` is at least `P`, however large `X` is. -/
theorem redResult : Obligations.RedResult :=
  ⟨rfl, fun s =>
    Machine.exec_of_commandResult
      ((Machine.redResult_eq_conditionalSubtract s.cfg s.xl).trans (Machine.conditionalSubtract_eq_mk _ _))⟩

end Sys2Proof

/-! ## Proofs: bus errors (60_exceptions.md R214)

Where no register starts, or the width is not 8, an access is an error by `hostAccess_error`. What is left is performed at a
register, and there only a write to a read-only register is an error (`performAt_busError_or`). -/

namespace Sys2Proof

namespace Machine

/-- No register starts at an undefined offset (20_memory.md R51). -/
theorem not_undefinedOffset_regOffset (r : Reg) : ¬ undefinedOffset (regOffset r) := by
  rw [← regAt_eq_none_iff (regOffset r) (regOffset_bounds r).2, regAt_regOffset]
  exact Option.some_ne_none r

/-- The registers that take no write are those at the read-only offsets (20_memory.md R51, R54). -/
theorem writeReg_eq_none_iff (r : Reg) (v : Word) (s : State) :
    writeReg r v s = none ↔ readOnlyOffset (regOffset r) := by
  cases r with
  | x k | y k | cmd | status =>
    exact iff_of_false (Option.some_ne_none _) (by simp only [readOnlyOffset, regOffset]; omega)
  | caps => exact iff_of_true rfl (.inr (.inl rfl))
  | z k | p k | inv | r1 k | r2 k | r3 k =>
    exact iff_of_true rfl (by simp only [readOnlyOffset, regOffset]; omega)

theorem hostWrite_readOnly {r : Reg} (h : readOnlyOffset (regOffset r)) (v : Word) (s : State) :
    hostWrite r v s = raiseBusError s := by
  simp only [hostWrite, (writeReg_eq_none_iff r v s).mpr h]

theorem hostWrite_resp_writable {r : Reg} (h : ¬ readOnlyOffset (regOffset r)) (v : Word) (s : State) :
    (hostWrite r v s).resp = .ok := by
  obtain ⟨t, ht⟩ := Option.ne_none_iff_exists'.mp (mt (writeReg_eq_none_iff r v s).mp h)
  simp only [hostWrite, ht]

theorem busErrorCondition_of_width {c : Config} {a : Access} (h : accessWidth a ≠ 8) : busErrorCondition c a := by
  cases a with
  | read addr width => exact .inl h
  | write addr width v => exact .inl h

theorem busErrorCondition_of_undefinedOffset {c : Config} {a : Access} (h : undefinedOffset (accessAddr a - c.base)) :
    busErrorCondition c a := by
  cases a with
  | read addr width => exact .inr h
  | write addr width v => exact .inr (.inl h)

/-- An 8-byte access at the offset of a register is performed, unless R214 makes it an error: then it only answers so. -/
theorem performAt_busError_or {c : Config} {a : Access} {r : Reg} (h8 : accessWidth a = 8)
    (hoff : accessAddr a - c.base = regOffset r) (s : State) :
    (busErrorCondition c a ∧ performAt a r s = raiseBusError s) ∨
    (¬ busErrorCondition c a ∧ (performAt a r s).resp ≠ .error) := by
  have hdef : ¬ undefinedOffset (accessAddr a - c.base) := hoff ▸ not_undefinedOffset_regOffset r
  cases a with
  | read addr width => exact .inr ⟨not_or.mpr ⟨not_not_intro h8, hdef⟩, Response.noConfusion⟩
  | write addr width v =>
    by_cases hro : readOnlyOffset (regOffset r)
    · exact .inl ⟨.inr (.inr (hoff ▸ hro)), hostWrite_readOnly hro v s⟩
    · refine .inr ⟨not_or.mpr ⟨not_not_intro h8, not_or.mpr ⟨hdef, hoff ▸ hro⟩⟩, ?_⟩
      rw [performAt, hostWrite_resp_writable hro v s]
      exact Response.noConfusion

/-- An access of the window, outside reset, is an error that changes nothing, or is answered without one, as R214 says. -/
theorem hostAccess_busError_or {s : State} {a : Access} (hin : inWindow s.cfg a) :
    (busErrorCondition s.cfg a ∧ hostAccess a s = raiseBusError s) ∨
    (¬ busErrorCondition s.cfg a ∧ (hostAccess a s).resp ≠ .error) := by
  obtain ⟨hw, hlt⟩ := windowOffset_of_inWindow hin
  by_cases h8 : accessWidth a = 8
  · cases hr : regAt (accessAddr a - s.cfg.base) with
    | none =>
      exact .inl ⟨busErrorCondition_of_undefinedOffset ((regAt_eq_none_iff _ hlt).mp hr),
        hostAccess_error hw (.inr (.inr hr))⟩
    | some r =>
      rw [hostAccess_at hw h8 hr]
      exact performAt_busError_or h8 (regOffset_of_regAt hr).symm s
  · exact .inl ⟨busErrorCondition_of_width h8, hostAccess_error hw (.inl h8)⟩

/-- An access of the window at an edge with reset is answered with an error and not performed (70_reset_and_hazards.md
R241). -/
theorem resetEdge_inWindow {s : State} {a : Access} (hin : inWindow s.cfg a) :
    resetEdge (some a) s = { State.resetIn s.cfg with inputs := s.inputs, resp := .error } := by
  simp only [resetEdge, (windowOffset_of_inWindow hin).1]

/-- Settles O29: outside reset the two cases of an access exclude each other, and an edge with reset performs no access. -/
theorem busErrorExactly : Obligations.BusErrorExactly := by
  refine ⟨fun s a hin => ?_, fun s a hin => congrArg Host.Outcome.next (resetEdge_inWindow hin)⟩
  obtain ⟨hcond, h⟩ | ⟨hcond, h⟩ := hostAccess_busError_or hin
  · exact ⟨iff_of_true (congrArg State.resp h) hcond, fun _ => h⟩
  · exact ⟨iff_of_false h hcond, fun hc => absurd hc hcond⟩

end Machine

end Sys2Proof

/-! ## Proofs: reset, and the order of the events of one edge (70_reset_and_hazards.md R240, R241, R248)

What a step answers at an edge with reset (`step_at_reset`) and at a command's last edge (`step_at_completion`); an access of
the last edge is then an access of an idle block. -/

namespace Sys2Proof

namespace Machine

/-! ### The two edges -/

theorem nextEdge_of_inputs {s : State} {e : Edge} {rest : List Edge} (h : s.inputs = e :: rest) : nextEdge s = e := by
  rw [nextEdge, h, List.headD_cons]

theorem takeEdge_of_inputs {s : State} {e : Edge} {rest : List Edge} (h : s.inputs = e :: rest) :
    takeEdge s = { s with inputs := rest } := by
  rw [takeEdge, h, List.tail_cons]

/-- An edge with reset, whatever the engine was at (70_reset_and_hazards.md R240). -/
theorem step_at_reset {s : State} {acc : Option Access} {rest : List Edge} (hw : s.cfg.wf = true)
    (hin : s.inputs = { rst := true, access := acc } :: rest) :
    step s = .next (resetEdge acc { s with inputs := rest }) := by
  have hedge := nextEdge_of_inputs hin
  rw [step_of_reset hw (by rw [hedge]), hedge, takeEdge_of_inputs hin]

/-- The state that the completion of `i` leaves, with the edge's inputs taken and `rest` still to come (30_encoding.md R86). -/
def afterCompletion (i : Instr) (rest : List Edge) (s : State) : State :=
  complete (commandResult s.cfg i s.xl s.yl) { s with cnt := 0, inputs := rest }

/-- The last edge of a command: the completion, then the host's part on the state it left (70_reset_and_hazards.md R248). -/
theorem step_at_completion {s : State} {i : Instr} {acc : Option Access} {rest : List Edge} (hw : s.cfg.wf = true)
    (hb : s.busy = true) (hc : s.cnt = 1) (ho : s.opl = i.opcode)
    (hin : s.inputs = { rst := false, access := acc } :: rest) :
    step s = .next (hostPart acc (afterCompletion i rest s)) := by
  have hedge := nextEdge_of_inputs hin
  have hrun : engineEdge (takeEdge s) = .next (afterCompletion i rest s) := by
    rw [takeEdge_of_inputs hin]
    exact engineEdge_run hb hc ho
  rw [step_of_engine hw (by rw [hedge]) hrun, hedge]

/-! ### STATUS and CMD as a completion leaves them -/

/-- Bits 0, 1 and 2 of STATUS (10_state.md R25). -/
theorem statusWord_low_bits (s : State) :
    (statusWord s).getLsbD 0 = s.busy ∧ (statusWord s).getLsbD 1 = s.done ∧ (statusWord s).getLsbD 2 = s.flag := by
  have all : ∀ drop ill flag done busy : Bool,
      let w := BitVec.ofNat 64
        (drop.toNat * 2 ^ 4 + ill.toNat * 2 ^ 3 + flag.toNat * 2 ^ 2 + done.toNat * 2 ^ 1 + busy.toNat)
      w.getLsbD 0 = busy ∧ w.getLsbD 1 = done ∧ w.getLsbD 2 = flag := by decide
  exact all s.drop s.ill s.flag s.done s.busy

/-- A word that decodes has its command's opcode in `OP` (30_encoding.md R80). -/
theorem opcode_of_decode {v : Word} {i : Instr} (h : decode v = .ok i) : i.opcode = opField v := by
  rw [decode_eq_ok_iff.mp h]
  cases i <;> rfl

/-- A legal word written to CMD while idle is accepted (30_encoding.md R85). -/
theorem commandWrite_legal {v : Word} {s : State} (hb : s.busy = false) (hl : legal s.cfg v = true) :
    ∃ i : Instr, i.opcode = opField v ∧ commandWrite v s = accept i s := by
  obtain ⟨hbusy, -⟩ | ⟨-, hill, -⟩ | ⟨-, i, hd, -, h⟩ := commandWrite_cases v s
  · simp [hb] at hbusy
  · simp [hl] at hill
  · exact ⟨i, opcode_of_decode hd, h⟩

/-- An illegal word written to CMD while idle raises the illegal condition (60_exceptions.md R212). -/
theorem commandWrite_illegal {v : Word} {s : State} (hb : s.busy = false) (hl : legal s.cfg v = false) :
    commandWrite v s = raiseIllegal s := by
  obtain ⟨hbusy, -⟩ | ⟨-, -, h⟩ | ⟨-, i, hd, hwf, -⟩ := commandWrite_cases v s
  · simp [hb] at hbusy
  · exact h
  · simp [legal_of_decode s.cfg hd, hwf] at hl

/-- A write to CMD while idle is accepted or illegal, never dropped, and leaves the result (30_encoding.md R85). -/
theorem commandWrite_idle {s : State} (v : Word) (hb : s.busy = false) :
    (commandWrite v s).drop = s.drop ∧ (commandWrite v s).z = s.z ∧
      (legal s.cfg v = true → (commandWrite v s).busy = true ∧ (commandWrite v s).xl = s.x ∧
        (commandWrite v s).yl = s.y ∧ (commandWrite v s).opl = opField v) ∧
      (legal s.cfg v = false → (commandWrite v s).busy = false ∧ (commandWrite v s).ill = true) := by
  cases hl : legal s.cfg v with
  | true =>
    obtain ⟨i, hop, h⟩ := commandWrite_legal hb hl
    simp [h, hop]
  | false => simp [commandWrite_illegal hb hl, hb]

/-! ### The obligations -/

/-- Settles O37: the step at the last edge is the host's access on the completed state, which is idle with DONE set; at an
edge with reset there is no completion. -/
theorem completionComesBeforeAccess : Obligations.CompletionComesBeforeAccess := by
  intro s i rest v hw hb hc ho
  have hstep (a : Access) : step { s with inputs := { rst := false, access := some a } :: rest } =
      .next (hostAccess a (afterCompletion i rest s)) :=
    step_at_completion (s := { s with inputs := { rst := false, access := some a } :: rest }) hw hb hc ho rfl
  have hread (r : Reg) : step { s with inputs :=
      { rst := false, access := some (.read (s.cfg.base + regOffset r) 8) } :: rest } =
      .next (hostRead r (afterCompletion i rest s)) :=
    (hstep _).trans (congrArg _ (hostAccess_read r (afterCompletion i rest s)))
  have hwrite (r : Reg) : step { s with inputs :=
      { rst := false, access := some (.write (s.cfg.base + regOffset r) 8 v) } :: rest } =
      .next (hostWrite r v (afterCompletion i rest s)) :=
    (hstep _).trans (congrArg _ (hostAccess_write r v (afterCompletion i rest s)))
  refine ⟨?_, fun k => ?_, ?_, ?_, fun acc => ?_⟩
  · exact ⟨_, _, hread .status, rfl, statusWord_low_bits (afterCompletion i rest s)⟩
  · exact ⟨_, hread (.z k), rfl⟩
  · exact ⟨_, hwrite .cmd, commandWrite_idle (s := afterCompletion i rest s) v rfl⟩
  · exact ⟨_, hwrite .status, rfl, rfl, Bool.true_and _⟩
  · exact ⟨_, step_at_reset hw rfl, rfl, rfl, rfl, rfl⟩

/-- Settles O38: an edge with reset leaves the reset state of the instance but for the inputs to come and the response. -/
theorem resetEdgeClearsEverything : Obligations.ResetEdgeClearsEverything := by
  intro s acc rest hw hin
  refine ⟨(resetEdge acc { s with inputs := rest }).resp, ?_, step_at_reset hw hin⟩
  rintro a rfl ha
  rw [resetEdge_inWindow (s := { s with inputs := rest }) ha]

end Machine

end Sys2Proof

/-! ## Proofs: a command's bytes on the bus (30_encoding.md section 1, 20_memory.md section 2)

The bytes of the word that eight bytes make are those bytes (`wordBytes_wordOfBytes`), so bytes that decode are the bytes
of a word that decodes, of which a command has one (`decode_eq_ok_iff`). -/

namespace Sys2Proof

theorem byteOfWord_wordOfBytes_zero (b : Byte) (bs : List Byte) : byteOfWord (wordOfBytes (b :: bs)) 0 = b := by
  refine BitVec.eq_of_getLsbD_eq fun i hi => ?_
  have hi64 : i < 64 := by omega
  simp [byteOfWord, wordOfBytes, hi, hi64]

/-- A further byte in front shifts the others up by one place. -/
theorem byteOfWord_wordOfBytes_succ (b : Byte) (bs : List Byte) {k : Nat} (hk : k + 1 < 8) :
    byteOfWord (wordOfBytes (b :: bs)) (k + 1) = byteOfWord (wordOfBytes bs) k := by
  refine BitVec.eq_of_getLsbD_eq fun i hi => ?_
  have hin : 8 * (k + 1) + i < 64 := by omega
  have hsub : 8 * (k + 1) + i - 8 = 8 * k + i := by omega
  have hout : b.getLsbD (8 * (k + 1) + i) = false := BitVec.getLsbD_of_ge _ _ (by omega)
  have hge : ¬ 8 * (k + 1) + i < 8 := by omega
  simp only [byteOfWord, wordOfBytes, BitVec.getLsbD_extractLsb', BitVec.getLsbD_or, BitVec.getLsbD_setWidth,
    BitVec.getLsbD_shiftLeft, hi, hin, hsub, hout, hge, decide_true, decide_false, Bool.not_false, Bool.true_and,
    Bool.and_false, Bool.false_or]

theorem byteOfWord_wordOfBytes {bs : List Byte} {k : Nat} (hk : k < bs.length) (h8 : k < 8) :
    byteOfWord (wordOfBytes bs) k = bs[k] := by
  induction bs generalizing k with
  | nil => cases hk
  | cons b bs ih =>
    cases k with
    | zero => exact byteOfWord_wordOfBytes_zero b bs
    | succ k => exact (byteOfWord_wordOfBytes_succ b bs h8).trans (ih (Nat.lt_of_succ_lt_succ hk) (by omega))

theorem wordBytes_wordOfBytes {bs : List Byte} (h : bs.length = 8) : wordBytes (wordOfBytes bs) = bs := by
  have hlen : ∀ v : Word, (wordBytes v).length = 8 := fun _ => rfl
  refine List.ext_getElem ((hlen _).trans h.symm) fun k hk hk' => ?_
  rw [← byteOfWord_wordOfBytes hk' (h ▸ hk')]
  simp [wordBytes]

theorem decodeBytes_wordBytes (v : Word) : decodeBytes (wordBytes v) = decode v := by
  rw [decodeBytes, wordOfBytes_wordBytes]
  exact if_pos rfl

/-- Bytes that decode are eight, and their word is the command's (30_encoding.md R80). -/
theorem decodeBytes_eq_ok {bs : List Byte} {i : Instr} (h : decodeBytes bs = .ok i) :
    bs.length = 8 ∧ wordOfBytes bs = encode i := by
  by_cases hlen : bs.length = 8
  · rw [decodeBytes, if_pos hlen] at h
    exact ⟨hlen, decode_eq_ok_iff.mp h⟩
  · rw [decodeBytes, if_neg hlen] at h
    cases h

/-- Settles O2: bytes and words of eight bytes correspond one to one, and so do commands and the words that decode. -/
theorem encodingRoundTripBothWays : Obligations.EncodingRoundTripBothWays := by
  refine ⟨fun i => (decodeBytes_wordBytes _).trans (decode_encode i), fun bs i h => ?_⟩
  obtain ⟨hlen, hword⟩ := decodeBytes_eq_ok h
  rw [← hword, wordBytes_wordOfBytes hlen]

/-- Settles O1: sixteen evaluations of the decoder. -/
theorem opcodeMapDecodes : Obligations.OpcodeMapDecodes := by
  unfold Obligations.OpcodeMapDecodes
  decide

end Sys2Proof

/-! ## Proofs: the invariant of every run (10_state.md section 5, 30_encoding.md section 3)

`State.Inv` holds after reset, and the engine's part and the host's part of an edge each keep it; the engine stops in no
state of it. -/

namespace Sys2Proof

namespace Machine

/-! ### The invariant -/

/-- An idle engine with no cycles left, in a well-formed instance (10_state.md R31). -/
theorem State.Inv.of_idle {s : State} (hwf : s.cfg.wf = true) (hb : s.busy = false) (hc : s.cnt = 0) : s.Inv :=
  ⟨hwf, fun h => by simp [hb] at h, fun _ => hc⟩

/-- What an engine that has just accepted `i` holds (30_encoding.md R85). -/
theorem State.Inv.accept {s : State} {i : Instr} (hwf : s.cfg.wf = true) (hi : i.wf s.cfg = true) :
    (accept i s).Inv := by
  obtain ⟨-, hlat, -⟩ := s.cfg.wf_iff.mp hwf
  exact ⟨hwf, fun _ => ⟨rfl, hlat i, i, hi, rfl, Nat.le_refl _⟩, fun h => by simp at h⟩

/-- A write to CMD is dropped, illegal or an acceptance; only an acceptance moves the engine. -/
theorem State.Inv.commandWrite {s : State} (hs : s.Inv) (v : Word) : (commandWrite v s).Inv := by
  obtain ⟨hwf, hbusy, hidle⟩ := hs
  obtain ⟨-, e⟩ | ⟨hb, -, e⟩ | ⟨-, i, -, hi, e⟩ := commandWrite_cases v s
  · rw [e]
    exact ⟨hwf, hbusy, hidle⟩
  · rw [e]
    exact .of_idle hwf hb (hidle hb)
  · rw [e]
    exact .accept hwf hi

/-- A write to STATUS may clear DONE and sets nothing (10_state.md R25). -/
theorem State.Inv.statusWrite {s : State} (hs : s.Inv) (v : Word) : (statusWrite v s).Inv := by
  obtain ⟨hwf, hbusy, hidle⟩ := hs
  refine ⟨hwf, fun hb => ?_, hidle⟩
  obtain ⟨hdone, hcnt⟩ := hbusy hb
  exact ⟨by simp [hdone], hcnt⟩

theorem State.Inv.hostAccess {s : State} (hs : s.Inv) (a : Access) : (hostAccess a s).Inv := by
  obtain ⟨r, e⟩ | ⟨k, v, -, e⟩ | ⟨k, v, -, e⟩ | ⟨v, -, e⟩ | ⟨v, -, e⟩ := hostAccess_cases a s
  · rw [e]
    exact hs
  · rw [e]
    exact hs
  · rw [e]
    exact hs
  · rw [e]
    exact hs.statusWrite v
  · rw [e]
    exact hs.commandWrite v

theorem State.Inv.hostPart {s : State} (hs : s.Inv) (a : Option Access) : (hostPart a s).Inv := by
  cases a with
  | none => exact hs
  | some a => exact hs.hostAccess a

theorem State.Inv.engineEdge {s t : State} (hs : s.Inv) (h : engineEdge s = .next t) : t.Inv := by
  obtain ⟨-, rfl⟩ | ⟨hb, n, hc, rfl⟩ | ⟨-, -, i, -, rfl⟩ := engineEdge_cases h
  · exact hs
  · obtain ⟨hwf, hbusy, -⟩ := hs
    obtain ⟨hdone, -, i, hi, ho, hle⟩ := hbusy hb
    refine ⟨hwf, fun _ => ⟨hdone, Nat.le_add_left 1 n, i, hi, ho, ?_⟩, fun h => by simp [hb] at h⟩
    show n + 1 ≤ s.cfg.latOf i
    omega
  · exact .of_idle hs.1 rfl rfl

/-- Settles O43: after reset the engine is idle with no cycles left. -/
theorem invariantAtReset : Obligations.InvariantAtReset :=
  ⟨.of_idle (by decide) rfl rfl, fun _ hwf => .of_idle hwf rfl rfl⟩

/-- Settles O44: a reset edge leaves an idle engine, and any other edge is the engine's part and then the host's. -/
theorem stepKeepsInvariant : Obligations.StepKeepsInvariant := by
  intro s t hs h
  obtain ⟨hwf, ⟨-, rfl⟩ | ⟨-, u, hu, rfl⟩⟩ := step_cases h
  · exact .of_idle hwf rfl rfl
  · have hedge : (takeEdge s).Inv := hs
    exact (hedge.engineEdge hu).hostPart _

/-! ### Every edge answers -/

/-- A busy engine of the invariant has cycles left and a command's opcode, so it raises none of its two faults (log 9). -/
theorem State.Inv.engineEdge_answers {s : State} (hs : s.Inv) : ∃ t : State, Machine.engineEdge s = .next t := by
  obtain ⟨-, hbusy, -⟩ := hs
  cases hb : s.busy with
  | false => exact ⟨s, engineEdge_idle hb⟩
  | true =>
    obtain ⟨-, hpos, i, -, ho, -⟩ := hbusy hb
    match hc : s.cnt with
    | 0 => omega
    | 1 => exact ⟨_, engineEdge_run hb hc ho⟩
    | n + 2 => exact ⟨_, engineEdge_count hb hc⟩

theorem State.Inv.step_answers {s : State} (hs : s.Inv) : ∃ t : State, step s = .next t := by
  cases hr : (nextEdge s).rst with
  | true => exact ⟨_, step_of_reset hs.1 hr⟩
  | false =>
    have hedge : (takeEdge s).Inv := hs
    obtain ⟨u, hu⟩ := hedge.engineEdge_answers
    exact ⟨_, step_of_engine hs.1 hr hu⟩

/-- Settles O45: the invariant does not speak of the inputs, so it holds with any edge in front of them. -/
theorem everyEdgeAnswers : Obligations.EveryEdgeAnswers := fun s e hs =>
  State.Inv.step_answers (s := { s with inputs := e :: s.inputs }) hs

/-! ### Z and FLAG belong to one command -/

/-- The host's part of an edge leaves Z, FLAG and, where the block is idle after it, the latches (10_state.md R23). -/
theorem State.OneResult.hostPart {s : State} (hs : s.OneResult) (a : Option Access) : (hostPart a s).OneResult := by
  intro hidle
  obtain ⟨hb, hxl, hyl, hopl⟩ := hostPart_idle hidle
  obtain ⟨hcfg, hz, hflag, -⟩ := hostPart_keeps a s
  rw [hcfg, hz, hflag, hxl, hyl, hopl]
  exact hs hb

/-- A completion writes Z and FLAG together, from the command that the instance has in `OPL` (30_encoding.md R86). -/
theorem State.OneResult.engineEdge {s t : State} (hinv : s.Inv) (hs : s.OneResult)
    (h : Machine.engineEdge s = .next t) : t.OneResult := by
  obtain ⟨-, rfl⟩ | ⟨hb, n, -, rfl⟩ | ⟨hb, -, i, ho, rfl⟩ := engineEdge_cases h
  · exact hs
  · intro hidle
    simp [hb] at hidle
  · obtain ⟨-, hbusy, -⟩ := hinv
    obtain ⟨-, -, j, hj, hjo, -⟩ := hbusy hb
    have hij : i = j := opcode_injective (ho.symm.trans hjo)
    exact fun _ => .inr ⟨i, hij ▸ hj, ho, rfl⟩

theorem State.OneResult.of_reset {s : State} (ho : s.opl = 0) (hz : s.z = Limbs.zero) (hf : s.flag = false) :
    s.OneResult :=
  fun _ => .inl ⟨ho, hz, hf⟩

/-- Settles O48: `OPL`, Z and FLAG are 0 after reset. -/
theorem oneResultAtReset : Obligations.OneResultAtReset := fun _ => .of_reset rfl rfl rfl

/-- Settles O47: a reset edge clears all three, a completion writes both results of one command, and the host's part
leaves them. -/
theorem stepKeepsOneResult : Obligations.StepKeepsOneResult := by
  intro s t hinv hs h
  obtain ⟨-, ⟨-, rfl⟩ | ⟨-, u, hu, rfl⟩⟩ := step_cases h
  · exact .of_reset rfl rfl rfl
  · exact State.OneResult.hostPart (.engineEdge (s := takeEdge s) hinv hs hu) _

end Machine

end Sys2Proof

/-! ## Proofs: bounds of the limb primitives (40_limb_primitives.md sections 1 to 4)

The two limbs of MAC, MACX and ADC make up the sum exactly (`mac_exact`, `macx_exact`, `adc_exact`), so bounds of the high
limb are bounds of the sum. -/

namespace Sys2Proof

namespace Machine

/-- A product of two limbs leaves room for one more limb below `2^128 − 2^64 + 1` (40_limb_primitives.md section 2). -/
theorem macx_bound (a b c : Word) : a.toNat + b.toNat * c.toNat ≤ 2 ^ 128 - 2 ^ 64 := by
  have ha : a.toNat ≤ 2 ^ 64 - 1 := Nat.le_pred_of_lt a.isLt
  have hp : b.toNat * c.toNat ≤ (2 ^ 64 - 1) * (2 ^ 64 - 1) :=
    Nat.mul_le_mul (Nat.le_pred_of_lt b.isLt) (Nat.le_pred_of_lt c.isLt)
  omega

/-- The largest high limb of MACX leaves nothing for the low limb. -/
theorem macx_low_eq_zero {a b c : Word} (h : (macx a b c).2.toNat = 2 ^ 64 - 1) : (macx a b c).1 = 0 := by
  have hexact := macx_exact a b c
  have hbound := macx_bound a b c
  apply BitVec.eq_of_toNat_eq
  rw [zero_toNat]
  omega

/-- Settles O8: with the exact sums, the bounds are those of a sum of limbs. -/
theorem limbSumsAreExact : Obligations.LimbSumsAreExact := by
  refine ⟨fun a b c carry => ⟨Nat.le_pred_of_lt (mac_bound a b c carry), mac_exact a b c carry⟩,
    fun a b c => ⟨rfl, macx_bound a b c, macx_low_eq_zero⟩, fun a b carry => ?_⟩
  have hexact := adc_exact a b carry
  have ha := a.isLt
  have hb := b.isLt
  have hcarry := carry.isLt
  exact ⟨hexact, by omega, by omega⟩

/-! ### The closed form of SBB -/

theorem ite_one_zero_eq_one_iff (p : Prop) [Decidable p] : (if p then 1 else 0 : Word) = 1 ↔ p := by
  by_cases hp : p <;> simp [hp]

theorem sbb_borrow_zero_or_one (a b borrow : Word) : (sbb a b borrow).2 = 0 ∨ (sbb a b borrow).2 = 1 := by
  rw [sbb_snd]
  split
  · exact .inr rfl
  · exact .inl rfl

theorem sbb_borrow_eq_one_iff (a b borrow : Word) :
    (sbb a b borrow).2 = 1 ↔
      a.toNat < b.toNat + borrow.toNat ∧ b.toNat + borrow.toNat ≤ a.toNat + 2 ^ 64 := by
  rw [sbb_snd, ite_one_zero_eq_one_iff]

theorem sbb_difference (a b borrow : Word) :
    ((sbb a b borrow).1.toNat : Int) = ((a.toNat : Int) - b.toNat - borrow.toNat) % (2 : Int) ^ 64 := by
  have hb := b.isLt
  have hborrow := borrow.isLt
  rw [sbb_fst]
  omega

/-- Settles O10: the borrow out is 1 on one interval of `b + borrow` (`sbb_borrow_eq_one_iff`), else 0. -/
theorem sbbClosedForm : Obligations.SbbClosedForm := by
  intro a b borrow
  have ha := a.isLt
  have hb := b.isLt
  have hone := sbb_borrow_eq_one_iff a b borrow
  refine ⟨sbb_difference a b borrow, sbb_borrow_zero_or_one a b borrow, ?_, fun hborrow => ?_, fun hlow => ?_⟩
  · rw [hone]
    omega
  · rw [hone]
    omega
  · exact (sbb_borrow_zero_or_one a b borrow).resolve_right fun h => by have := hone.mp h; omega

end Machine

end Sys2Proof

/-! ## Proofs: the conditional subtraction (41_compare_reduce.md section 2) -/

namespace Sys2Proof

namespace Machine

theorem conditionalSubtract_taken_iff (a p : Limbs) : (conditionalSubtract a p).2 = true ↔ p.val ≤ a.val := by
  rw [conditionalSubtract_eq_mk, decide_eq_true_iff]

theorem conditionalSubtract_val (a p : Limbs) :
    (conditionalSubtract a p).1.val = if p.val ≤ a.val then a.val - p.val else a.val := by
  rw [conditionalSubtract_eq_mk]
  by_cases h : p.val ≤ a.val
  · have := a.val_lt
    simp only [if_pos h, Limbs.val_ofNat]
    omega
  · simp only [if_neg h]

/-- The conditional subtraction reduces what is below `2·val(p)` (41_compare_reduce.md section 2). -/
theorem conditionalSubtract_lt {a p : Limbs} (h : a.val < 2 * p.val) : (conditionalSubtract a p).1.val < p.val := by
  rw [conditionalSubtract_val]
  split <;> omega

/-- A conditional subtraction keeps the value modulo `val(p)`. -/
theorem conditionalSubtract_modEq (a p : Limbs) : (conditionalSubtract a p).1.val ≡ a.val [MOD p.val] := by
  rw [conditionalSubtract_val]
  split
  next h => exact (Nat.mod_eq_sub_mod h).symm
  next => rfl

/-- The chain borrows in the end only where the subtrahend is larger (41_compare_reduce.md R142). -/
theorem subtractChain_borrow_eq_zero {a p : Limbs} (h : p.val ≤ a.val) : (subtractChain a p).2 = 0 := by
  obtain ⟨hexact, hle⟩ := subtractChain_exact a p
  have hlt := (subtractChain a p).1.val_lt
  apply BitVec.eq_of_toNat_eq
  rw [zero_toNat]
  omega

/-- Settles O13: the subtraction is taken exactly where `val(a) >= val(p)`. -/
theorem conditionalSubtractFacts : Obligations.ConditionalSubtractFacts := by
  intro a p
  refine ⟨fun htaken => ?_, fun hnot => ?_, conditionalSubtract_lt⟩
  · have hle := (conditionalSubtract_taken_iff a p).mp htaken
    refine ⟨hle, ?_, subtractChain_borrow_eq_zero hle⟩
    rw [conditionalSubtract_val, if_pos hle, Nat.sub_add_cancel hle]
  · have hlt : ¬ p.val ≤ a.val := fun hle => by simp [(conditionalSubtract_taken_iff a p).mpr hle] at hnot
    rw [conditionalSubtract_eq, if_neg hlt]
    exact ⟨Nat.lt_of_not_le hlt, rfl⟩

end Machine

end Sys2Proof

/-! ## Proofs: the multipliers as exact recurrences (42_cios_mul.md R163, 43_edmsm_mul.md R193)

Each multiplier conditionally subtracts `P` from the four limbs of its recurrence (`ciosLoop_limbs`, `edmsmLoop_value`). -/

namespace Sys2Proof

namespace Machine

theorem mulResult_eq (c : Config) (a b : Limbs) :
    mulResult c a b = conditionalSubtract (Limbs.ofNat (c.montT4 a b)) c.p := by
  rw [← ciosLoop_limbs]
  rfl

theorem muleResult_eq (c : Config) (a b : Limbs) :
    muleResult c a b = conditionalSubtract (Limbs.ofNat (c.edmV4 a b)) c.p := by
  rw [← edmsmLoop_value, Limbs.ofNat_val]
  rfl

/-- Settles O14: the limbs before the conditional subtraction are `T_4 mod 2^256`. -/
theorem mulIsExactRecurrence : Obligations.MulIsExactRecurrence := by
  refine ⟨rfl, fun s v hv => exec_of_commandResult ?_⟩
  rw [hv, ← conditionalSubtract_eq_mk]
  exact mulResult_eq s.cfg s.xl s.yl

/-- Settles O15: the limbs before the conditional subtraction are `V_4`. -/
theorem muleIsExactRecurrence : Obligations.MuleIsExactRecurrence := by
  refine ⟨rfl, fun s v hv => exec_of_commandResult ?_⟩
  rw [hv, ← conditionalSubtract_eq_mk]
  exact muleResult_eq s.cfg s.xl s.yl

end Machine

end Sys2Proof

/-! ## Proofs: the Montgomery product (42_cios_mul.md R163, 43_edmsm_mul.md R193, R194)

With `INV·P[0] ≡ −1` every division by `2^64` in the recurrence is exact, so four iterations divide `a·b + M·val(P)` by
`2^256` for some `M < 2^256` (`Config.MontReduced`). That quotient is determined by `a·b` alone, is below `2·val(P)` where an
operand is in domain, and is `a·b·2^(−256)` modulo `val(P)`; below `2·val(P)` the wrapped recurrence never wraps. -/

namespace Sys2Proof

/-! ### The premises on the constants -/

theorem Config.InvCorrect.modEq_zero {c : Config} (h : c.InvCorrect) :
    c.inv.toNat * c.p.l0.toNat + 1 ≡ 0 [MOD 2 ^ 64] := Eq.trans h (Nat.zero_mod _).symm

/-- A number and its negated inverse modulo `2^64` are odd. -/
theorem Config.InvCorrect.odd {c : Config} (h : c.InvCorrect) : c.p.val % 2 = 1 := by
  have hprod : Odd (c.inv.toNat * c.p.l0.toNat) := by
    rw [Config.InvCorrect] at h
    rw [Nat.odd_iff]
    omega
  have hl0 := Nat.odd_iff.mp (Nat.odd_mul.mp hprod).2
  simp only [Limbs.val]
  omega

theorem Config.InvCorrect.coprime {c : Config} (h : c.InvCorrect) : Nat.Coprime c.p.val (2 ^ 256) :=
  Nat.Coprime.pow_right 256 (Nat.coprime_two_right.mpr (Nat.odd_iff.mpr h.odd))

theorem Limbs.val_modEq_l0 (v : Limbs) : v.val ≡ v.l0.toNat [MOD 2 ^ 64] := by
  simp only [Nat.ModEq, Limbs.val]
  omega

/-- `INV·val(P)` and `INV·P[0]` agree modulo `2^64` (00_scope.md R5). -/
theorem Config.ConstantsCorrect.invCorrect {c : Config} (h : c.ConstantsCorrect) : c.InvCorrect := by
  obtain ⟨hinv, -⟩ := h
  exact Eq.trans ((c.p.val_modEq_l0.mul_left c.inv.toNat).add_right 1).symm hinv

/-! ### The exact quotient -/

/-- `t` is an exact quotient `(n + M·val(P)) / 2^256` with `M < 2^256`. -/
def Config.MontReduced (c : Config) (n t : Nat) : Prop := ∃ M < 2 ^ 256, 2 ^ 256 * t = n + M * c.p.val

theorem Config.reductionMultiplier_lt (c : Config) (n : Nat) : c.reductionMultiplier n < 2 ^ 64 :=
  Nat.mod_lt _ (Nat.two_pow_pos 64)

/-- The reduction multiplier clears the low limb: `n + m·val(P)` is a multiple of `2^64` (42_cios_mul.md R160). -/
theorem Config.InvCorrect.reduction_modEq_zero {c : Config} (h : c.InvCorrect) (n : Nat) :
    n + c.reductionMultiplier n * c.p.val ≡ 0 [MOD 2 ^ 64] := by
  have hm : c.reductionMultiplier n ≡ n * c.inv.toNat [MOD 2 ^ 64] :=
    (Nat.mod_modEq _ _).trans ((Nat.mod_modEq n _).mul_right _)
  calc n + c.reductionMultiplier n * c.p.val
      ≡ n + n * c.inv.toNat * c.p.l0.toNat [MOD 2 ^ 64] := (hm.mul c.p.val_modEq_l0).add_left n
    _ = n * (c.inv.toNat * c.p.l0.toNat + 1) := by ring
    _ ≡ n * 0 [MOD 2 ^ 64] := h.modEq_zero.mul_left n

/-- An iteration divides exactly (42_cios_mul.md R163). -/
theorem Config.InvCorrect.montStep_exact {c : Config} (h : c.InvCorrect) (t d : Nat) :
    ∃ m < 2 ^ 64, 2 ^ 64 * c.montStep t d = t + d + m * c.p.val :=
  ⟨c.reductionMultiplier (t + d), c.reductionMultiplier_lt _,
    Nat.mul_div_cancel' (Nat.dvd_of_mod_eq_zero (h.reduction_modEq_zero (t + d)))⟩

/-- Four iterations of the exact recurrence from 0, which add `d0` to `d3`. -/
def Config.montFour (c : Config) (d0 d1 d2 d3 : Nat) : Nat :=
  c.montStep (c.montStep (c.montStep (c.montStep 0 d0) d1) d2) d3

theorem Config.InvCorrect.montFour_reduced {c : Config} (h : c.InvCorrect) (d0 d1 d2 d3 : Nat) :
    c.MontReduced (d0 + 2 ^ 64 * d1 + 2 ^ 128 * d2 + 2 ^ 192 * d3) (c.montFour d0 d1 d2 d3) := by
  obtain ⟨m0, h0, e0⟩ := h.montStep_exact 0 d0
  obtain ⟨m1, h1, e1⟩ := h.montStep_exact (c.montStep 0 d0) d1
  obtain ⟨m2, h2, e2⟩ := h.montStep_exact (c.montStep (c.montStep 0 d0) d1) d2
  obtain ⟨m3, h3, e3⟩ := h.montStep_exact (c.montStep (c.montStep (c.montStep 0 d0) d1) d2) d3
  refine ⟨m0 + 2 ^ 64 * m1 + 2 ^ 128 * m2 + 2 ^ 192 * m3, by omega, ?_⟩
  rw [Config.montFour]
  linear_combination e0 + 2 ^ 64 * e1 + 2 ^ 128 * e2 + 2 ^ 192 * e3

/-- `2^256·T_4 = val(a)·val(b) + M·val(P)` (42_cios_mul.md R163). -/
theorem Config.InvCorrect.montT4_reduced {c : Config} (h : c.InvCorrect) (a b : Limbs) :
    c.MontReduced (a.val * b.val) (c.montT4 a b) := by
  have hsum : a.val * b.val = a.l0.toNat * b.val + 2 ^ 64 * (a.l1.toNat * b.val) +
      2 ^ 128 * (a.l2.toNat * b.val) + 2 ^ 192 * (a.l3.toNat * b.val) := by
    simp only [Limbs.val]
    ring
  rw [hsum]
  exact h.montFour_reduced _ _ _ _

/-- The quotient is determined by the number: two multipliers `M` agree modulo `2^256`. -/
theorem Config.InvCorrect.reduced_unique {c : Config} (h : c.InvCorrect) {n t u : Nat} (ht : c.MontReduced n t)
    (hu : c.MontReduced n u) : t = u := by
  obtain ⟨M, hM, eM⟩ := ht
  obtain ⟨N, hN, eN⟩ := hu
  have hsums : n + M * c.p.val ≡ n + N * c.p.val [MOD 2 ^ 256] := by
    rw [← eM, ← eN]
    exact (Nat.mul_mod_right _ t).trans (Nat.mul_mod_right _ u).symm
  have hMN : M = N :=
    ((hsums.add_left_cancel' n).cancel_right_of_coprime h.coprime.symm).eq_of_lt_of_lt hM hN
  exact Nat.eq_of_mul_eq_mul_left (Nat.two_pow_pos 256) (by rw [eM, eN, hMN])

theorem Config.MontReduced.lt {c : Config} {n t : Nat} (h : c.MontReduced n t) (hn : n < 2 ^ 256 * c.p.val) :
    t < 2 * c.p.val := by
  obtain ⟨M, hM, e⟩ := h
  have hMP : M * c.p.val ≤ 2 ^ 256 * c.p.val := Nat.mul_le_mul_right _ hM.le
  omega

theorem Config.MontReduced.modEq {c : Config} {n t : Nat} (h : c.MontReduced n t) :
    2 ^ 256 * t ≡ n [MOD c.p.val] := by
  obtain ⟨M, -, e⟩ := h
  rw [e]
  exact Nat.add_mul_mod_self_right n M c.p.val

/-! ### The wrapped recurrence in domain -/

/-- Below `2·val(P)` the accumulator stays below `2·val(P)` (43_edmsm_mul.md R193). -/
theorem Config.montStep_lt {c : Config} {v d : Nat} (hv : v < 2 * c.p.val) (hd : d ≤ c.p.val * (2 ^ 64 - 1)) :
    c.montStep v d < 2 * c.p.val := by
  have hm : c.reductionMultiplier (v + d) * c.p.val ≤ (2 ^ 64 - 1) * c.p.val :=
    Nat.mul_le_mul_right _ (Nat.le_pred_of_lt (c.reductionMultiplier_lt _))
  rw [Config.montStep]
  omega

theorem Config.edmStep_eq_montStep {c : Config} (hp : c.p.val < 2 ^ 255) {v d : Nat} (hv : v < 2 * c.p.val)
    (hd : d ≤ c.p.val * (2 ^ 64 - 1)) : c.edmStep v d = c.montStep v d := by
  have hlt := Config.montStep_lt hv hd
  exact Nat.mod_eq_of_lt (by omega)

/-- With `val(a) < val(P)` the recurrence of MULE is the exact one over the limbs of `b` (43_edmsm_mul.md R193). -/
theorem Config.edmV4_eq_montFour {c : Config} {a : Limbs} (hp : c.p.val < 2 ^ 255) (ha : c.InDomain a) (b : Limbs) :
    c.edmV4 a b = c.montFour (a.val * b.l0.toNat) (a.val * b.l1.toNat) (a.val * b.l2.toNat) (a.val * b.l3.toNat) := by
  have hpos : 0 < 2 * c.p.val := by have : a.val < c.p.val := ha; omega
  have hd (w : Word) : a.val * w.toNat ≤ c.p.val * (2 ^ 64 - 1) :=
    Nat.mul_le_mul (Nat.le_of_lt ha) (Nat.le_pred_of_lt w.isLt)
  have h0 := Config.montStep_lt hpos (hd b.l0)
  have h1 := Config.montStep_lt h0 (hd b.l1)
  have h2 := Config.montStep_lt h1 (hd b.l2)
  rw [Config.edmV4, Config.edmStep_eq_montStep hp hpos (hd b.l0), Config.edmStep_eq_montStep hp h0 (hd b.l1),
    Config.edmStep_eq_montStep hp h1 (hd b.l2), Config.edmStep_eq_montStep hp h2 (hd b.l3)]
  rfl

theorem Config.InvCorrect.edmV4_reduced {c : Config} (h : c.InvCorrect) {a : Limbs} (hp : c.p.val < 2 ^ 255)
    (ha : c.InDomain a) (b : Limbs) : c.MontReduced (a.val * b.val) (c.edmV4 a b) := by
  have hsum : a.val * b.val = a.val * b.l0.toNat + 2 ^ 64 * (a.val * b.l1.toNat) +
      2 ^ 128 * (a.val * b.l2.toNat) + 2 ^ 192 * (a.val * b.l3.toNat) := by
    simp only [Limbs.val]
    ring
  rw [hsum, Config.edmV4_eq_montFour hp ha]
  exact h.montFour_reduced _ _ _ _

/-- In domain the two recurrences have the same end (43_edmsm_mul.md R194). -/
theorem Config.InvCorrect.edmV4_eq_montT4 {c : Config} (h : c.InvCorrect) {a : Limbs} (hp : c.p.val < 2 ^ 255)
    (ha : c.InDomain a) (b : Limbs) : c.edmV4 a b = c.montT4 a b :=
  h.reduced_unique (h.edmV4_reduced hp ha b) (h.montT4_reduced a b)

/-- `T_4` is symmetric in the operands, in domain or not (42_cios_mul.md R163). -/
theorem Config.InvCorrect.montT4_comm {c : Config} (h : c.InvCorrect) (a b : Limbs) : c.montT4 a b = c.montT4 b a :=
  h.reduced_unique (h.montT4_reduced a b) (Nat.mul_comm b.val a.val ▸ h.montT4_reduced b a)

theorem Config.p_lt_of_wf {c : Config} (h : c.wf = true) : c.p.val < 2 ^ 255 := by
  obtain ⟨⟨-, -, hlt⟩, -⟩ := c.wf_iff.mp h
  exact hlt

theorem Config.p_pos_of_wf {c : Config} (h : c.wf = true) : 0 < c.p.val := by
  obtain ⟨⟨-, hle, -⟩, -⟩ := c.wf_iff.mp h
  omega

/-- With an operand below `P` the product is below `2^256·val(P)`. -/
theorem Config.product_lt {c : Config} {a b : Limbs} (h : c.InDomain a ∨ c.InDomain b) :
    a.val * b.val < 2 ^ 256 * c.p.val := by
  obtain ha | hb := h
  · rw [Nat.mul_comm]
    exact Nat.mul_lt_mul'' b.val_lt ha
  · exact Nat.mul_lt_mul'' a.val_lt hb

namespace Machine

/-! ### The two commands -/

/-- Conditionally subtracted, an exact quotient below `2·val(P)` is the Montgomery reduction of its number. -/
theorem conditionalSubtract_montgomery {c : Config} (hp : c.p.val < 2 ^ 255) {n t : Nat} (h : c.MontReduced n t)
    (hn : n < 2 ^ 256 * c.p.val) :
    (conditionalSubtract (Limbs.ofNat t) c.p).1.val < c.p.val ∧
      2 ^ 256 * (conditionalSubtract (Limbs.ofNat t) c.p).1.val ≡ n [MOD c.p.val] := by
  have ht : t < 2 * c.p.val := h.lt hn
  have hval : (Limbs.ofNat t).val = t := by
    rw [Limbs.val_ofNat]
    omega
  refine ⟨conditionalSubtract_lt (by rwa [hval]), ?_⟩
  have hmod := conditionalSubtract_modEq (Limbs.ofNat t) c.p
  rw [hval] at hmod
  exact (hmod.mul_left _).trans h.modEq

theorem mulResult_montgomery {c : Config} (hwf : c.wf = true) (hinv : c.InvCorrect) {a b : Limbs}
    (hdom : c.InDomain a ∨ c.InDomain b) :
    (mulResult c a b).1.val < c.p.val ∧ 2 ^ 256 * (mulResult c a b).1.val ≡ a.val * b.val [MOD c.p.val] := by
  rw [mulResult_eq]
  exact conditionalSubtract_montgomery (Config.p_lt_of_wf hwf) (hinv.montT4_reduced a b) (Config.product_lt hdom)

theorem muleResult_eq_mulResult {c : Config} (hwf : c.wf = true) (hinv : c.InvCorrect) {a : Limbs}
    (hdom : c.InDomain a) (b : Limbs) : muleResult c a b = mulResult c a b := by
  rw [mulResult_eq, muleResult_eq, hinv.edmV4_eq_montT4 (Config.p_lt_of_wf hwf) hdom]

theorem mulResult_comm {c : Config} (hinv : c.InvCorrect) (a b : Limbs) : mulResult c a b = mulResult c b a := by
  rw [mulResult_eq, mulResult_eq, hinv.montT4_comm]

/-- Settles O16: with an operand in domain the exact quotient is below `2·val(P)`, and one subtraction reduces it. -/
theorem mulIsMontgomeryProduct : Obligations.MulIsMontgomeryProduct := by
  intro s hwf hinv hdom
  obtain ⟨hlt, hmod⟩ := mulResult_montgomery hwf hinv hdom
  exact ⟨_, exec_eq .mul s, hlt, hmod, rfl⟩

/-- Settles O17: with `X` in domain MULE's result is MUL's. -/
theorem muleIsMontgomeryProduct : Obligations.MuleIsMontgomeryProduct := by
  intro s hwf hinv hdom
  obtain ⟨hlt, hmod⟩ := mulResult_montgomery (b := s.yl) hwf hinv (.inl hdom)
  rw [← muleResult_eq_mulResult hwf hinv hdom] at hlt hmod
  exact ⟨_, exec_eq .mule s, hlt, hmod, rfl⟩

/-- Settles O18: both results are the conditional subtraction of one exact quotient. -/
theorem muleEqualsMul : Obligations.MuleEqualsMul := by
  intro s hwf hinv hdom
  have hresult : commandResult s.cfg .mule s.xl s.yl = commandResult s.cfg .mul s.xl s.yl :=
    muleResult_eq_mulResult hwf hinv hdom s.yl
  exact ⟨_, exec_eq .mul s, by rw [exec_eq, hresult]⟩

/-- Settles O19: the exact quotient is determined by the product of the operands. -/
theorem mulCommutes : Obligations.MulCommutes := by
  intro s hinv
  have hresult : mulResult s.cfg s.yl s.xl = mulResult s.cfg s.xl s.yl := mulResult_comm hinv _ _
  exact ⟨_, _, exec_eq .mul s, exec_eq .mul _, congrArg Prod.fst hresult, congrArg Prod.snd hresult⟩

/-! ### Zero operands (42_cios_mul.md R164, 43_edmsm_mul.md R191) -/

theorem montStep_zero (c : Config) : c.montStep 0 0 = 0 := by
  simp [Config.montStep, Config.reductionMultiplier]

theorem montT4_of_zero (c : Config) {a b : Limbs} (h : a = Limbs.zero ∨ b = Limbs.zero) : c.montT4 a b = 0 := by
  obtain rfl | rfl := h
  · simp [Config.montT4, Limbs.zero, montStep_zero]
  · simp [Config.montT4, montStep_zero]

theorem edmV4_of_zero (c : Config) {a b : Limbs} (h : a = Limbs.zero ∨ b = Limbs.zero) : c.edmV4 a b = 0 := by
  obtain rfl | rfl := h
  · simp [Config.edmV4, Config.edmStep, montStep_zero]
  · simp [Config.edmV4, Config.edmStep, Limbs.zero, montStep_zero]

theorem conditionalSubtract_zero {p : Limbs} (h : 0 < p.val) :
    conditionalSubtract (Limbs.ofNat 0) p = (Limbs.zero, false) := by
  rw [conditionalSubtract_eq, if_neg (by rw [Limbs.val_ofNat]; omega)]
  rfl

/-- Settles O20: the recurrences stay at 0, whatever `INV` is, and 0 is below `P`. -/
theorem zeroOperandGivesZero : Obligations.ZeroOperandGivesZero := by
  intro i s hi hwf hzero
  have hsub := conditionalSubtract_zero (Config.p_pos_of_wf hwf)
  obtain rfl | rfl := hi
  · refine exec_of_commandResult ((mulResult_eq s.cfg s.xl s.yl).trans ?_)
    rw [montT4_of_zero s.cfg hzero, hsub]
  · refine exec_of_commandResult ((muleResult_eq s.cfg s.xl s.yl).trans ?_)
    rw [edmV4_of_zero s.cfg hzero, hsub]

/-! ### Conversions (70_reset_and_hazards.md R243, duty 2) -/

/-- Below `P` the Montgomery product is the number whose product with `2^256` it is (42_cios_mul.md R163). -/
theorem mulResult_eq_of_modEq {c : Config} (hwf : c.wf = true) (hinv : c.InvCorrect) {a b : Limbs}
    (hdom : c.InDomain a) {w : Nat} (h : a.val * b.val ≡ 2 ^ 256 * w [MOD c.p.val]) :
    (mulResult c a b).1 = Limbs.ofNat (w % c.p.val) := by
  obtain ⟨hlt, hmod⟩ := mulResult_montgomery (b := b) hwf hinv (.inl hdom)
  have hw : (mulResult c a b).1.val ≡ w [MOD c.p.val] := (hmod.trans h).cancel_left_of_coprime hinv.coprime
  rw [← Limbs.ofNat_val (mulResult c a b).1, ← Nat.mod_eq_of_lt hlt, hw]

theorem pow_512_eq (b : Nat) : b ^ 512 = b ^ 256 * b ^ 256 := by
  simp only [← Nat.pow_add, Nat.reduceAdd]

theorem pow_512_mul_self (b : Nat) : b ^ 512 * b ^ 512 = b ^ 256 * b ^ 768 := by
  simp only [← Nat.pow_add, Nat.reduceAdd]

/-- Settles O21: `X·R2 ≡ 2^256·(2^256·X)`, `X·R1 ≡ 2^256·X` and `R2·R2 ≡ 2^256·2^768` modulo `val(P)`, and `2^256` cancels. -/
theorem montgomeryConversions : Obligations.MontgomeryConversions := by
  intro s hwf hconst hdom
  have hinv := hconst.invCorrect
  obtain ⟨-, hr1, hr2, hr3⟩ := hconst
  have hx : s.xl.val % s.cfg.p.val = s.xl.val := Nat.mod_eq_of_lt hdom
  have hr1' : s.cfg.r1.val ≡ 2 ^ 256 [MOD s.cfg.p.val] := hr1 ▸ Nat.mod_modEq _ _
  have hr2' : s.cfg.r2.val ≡ 2 ^ 512 [MOD s.cfg.p.val] := hr2 ▸ Nat.mod_modEq _ _
  refine ⟨fun hy => ⟨_, exec_eq .mul s, mulResult_eq_of_modEq hwf hinv hdom ?_⟩, fun hy => ⟨_, exec_eq .mul s, ?_⟩,
    fun hy => ⟨_, exec_eq .mul s, ?_⟩, fun hx hy => ⟨_, exec_eq .mul s, ?_⟩⟩
  · rw [hy, ← Nat.mul_assoc, ← pow_512_eq, Nat.mul_comm]
    exact hr2'.mul_right _
  · obtain ⟨hlt, hmod⟩ := mulResult_montgomery (b := s.yl) hwf hinv (.inl hdom)
    have hone : s.yl.val = 1 := by rw [hy]; rfl
    rw [hone, Nat.mul_one] at hmod
    exact ⟨hlt, Eq.trans hmod hx⟩
  · have hz : (mulResult s.cfg s.xl s.yl).1 = Limbs.ofNat (s.xl.val % s.cfg.p.val) := by
      refine mulResult_eq_of_modEq hwf hinv hdom ?_
      rw [hy, Nat.mul_comm]
      exact hr1'.mul_right _
    rwa [hx, Limbs.ofNat_val] at hz
  · have hz : (mulResult s.cfg s.xl s.yl).1 = Limbs.ofNat (2 ^ 768 % s.cfg.p.val) := by
      refine mulResult_eq_of_modEq hwf hinv hdom ?_
      rw [hx, hy, ← pow_512_mul_self]
      exact hr2'.mul hr2'
    rwa [← hr3, Limbs.ofNat_val] at hz

/-! ### Out of domain (43_edmsm_mul.md R195) -/

/-- Settles O22: the two results in the reference configuration are evaluated. -/
theorem muleDiffersOutOfDomain : Obligations.MuleDiffersOutOfDomain := by
  intro s hcfg hx hy
  have hmul : commandResult s.cfg .mul s.xl s.yl =
      (Limbs.ofNat 0x15ebf95182c5551cc8260de4aeb85d5d090ef5a9e111ec87dc5ba0056db1194c, false) := by
    rw [hcfg, hx, hy]
    decide
  have hmule : commandResult s.cfg .mule s.xl s.yl =
      (Limbs.ofNat 0x15ebf95182c5551bc8260de4aeb85d5c090ef5a9e111ec86dc5ba0056db1194c, false) := by
    rw [hcfg, hx, hy]
    decide
  refine ⟨⟨_, exec_of_commandResult hmul, rfl, ?_⟩, _, exec_of_commandResult hmule, rfl, ?_⟩
  · exact Limbs.val_ofNat _
  · exact Limbs.val_ofNat _

end Machine

end Sys2Proof

/-! ## Proofs: what holds of every command (30_encoding.md sections 2 and 3, 10_state.md section 3)

Every command is a completion with the result of `F` (`exec_eq`). Its frame is that of a completion; what it depends on is
what `F` reads. -/

namespace Sys2Proof

theorem Limbs.ext_limbs {a b : Limbs} (h0 : a.l0 = b.l0) (h1 : a.l1 = b.l1) (h2 : a.l2 = b.l2) (h3 : a.l3 = b.l3) :
    a = b :=
  Limbs.ext_val (by simp only [Limbs.val, h0, h1, h2, h3])

namespace Machine

/-! ### The frame -/

/-- A completion changes no register but the limbs of Z and STATUS (30_encoding.md R86). -/
theorem readReg_complete {r : Reg} (hz : ∀ k, r ≠ .z k) (hstatus : r ≠ .status) (res : Limbs × Bool) (s : State) :
    readReg r (complete res s) = readReg r s := by
  cases r with
  | z k => exact absurd rfl (hz k)
  | status => exact absurd rfl hstatus
  | x k | y k | cmd | caps | p k | inv | r1 k | r2 k | r3 k => rfl

theorem windowByte_complete {a : Nat} (hz : ¬ (0x040 ≤ a ∧ a < 0x060)) (hstatus : ¬ (0x068 ≤ a ∧ a < 0x070))
    (res : Limbs × Bool) (s : State) : windowByte (complete res s) a = windowByte s a := by
  cases hr : regAt (a - a % 8) with
  | none => simp only [windowByte, hr, Option.map_none]
  | some r =>
    have hoff : regOffset r = a - a % 8 := regOffset_of_regAt hr
    have hread : readReg r (complete res s) = readReg r s := by
      refine readReg_complete (fun k h => hz ?_) (fun h => hstatus ?_) res s
      · rw [h, regOffset] at hoff
        omega
      · rw [h, regOffset] at hoff
        omega
    simp only [windowByte, hr, Option.map_some, hread]

/-- Settles O23: a command is a completion, and the byte's register is neither a limb of Z nor STATUS. -/
theorem commandFrame : Obligations.CommandFrame := fun i s =>
  ⟨_, exec_eq i s, rfl, fun _ hz hstatus => windowByte_complete hz hstatus _ s⟩

/-! ### What a result depends on -/

theorem mulResult_congr {c c' : Config} (hp : c.p = c'.p) (hinv : c.inv = c'.inv) (a b : Limbs) :
    mulResult c a b = mulResult c' a b := by
  simp only [mulResult_eq, Config.montT4, Config.montStep, Config.reductionMultiplier, hp, hinv]

theorem muleResult_congr {c c' : Config} (hp : c.p = c'.p) (hinv : c.inv = c'.inv) (a b : Limbs) :
    muleResult c a b = muleResult c' a b := by
  simp only [muleResult_eq, Config.edmV4, Config.edmStep, Config.montStep, Config.reductionMultiplier, hp, hinv]

theorem redResult_congr {c c' : Config} (hp : c.p = c'.p) (a : Limbs) : redResult c a = redResult c' a := by
  simp only [redResult_eq_conditionalSubtract, hp]

/-- `F` reads the constants and the limbs that 30_encoding.md R83 and R87 name, command by command. -/
theorem commandResult_congr (i : Instr) {c c' : Config} {x x' y y' : Limbs}
    (hp : i = .mac ∨ i = .macx ∨ i = .adc ∨ i = .sbb ∨ i = .geq ∨ c.p = c'.p)
    (hinv : i = .mac ∨ i = .macx ∨ i = .adc ∨ i = .sbb ∨ i = .geq ∨ i = .red ∨ c.inv = c'.inv)
    (h0 : x.l0 = x'.l0) (h1 : x.l1 = x'.l1) (h2 : x.l2 = x'.l2)
    (h3 : i = .macx ∨ i = .adc ∨ i = .sbb ∨ x.l3 = x'.l3)
    (hy : i = .mac ∨ i = .macx ∨ i = .adc ∨ i = .sbb ∨ i = .red ∨ y = y') :
    commandResult c i x y = commandResult c' i x' y' := by
  cases i with
  | mul =>
    simp only [reduceCtorEq, false_or] at hp hinv h3 hy
    rw [Limbs.ext_limbs h0 h1 h2 h3, hy]
    exact mulResult_congr hp hinv x' y'
  | mule =>
    simp only [reduceCtorEq, false_or] at hp hinv h3 hy
    rw [Limbs.ext_limbs h0 h1 h2 h3, hy]
    exact muleResult_congr hp hinv x' y'
  | mac =>
    simp only [reduceCtorEq, false_or] at h3
    simp only [commandResult, h0, h1, h2, h3]
  | macx => simp only [commandResult, h0, h1, h2]
  | adc => simp only [commandResult, h0, h1, h2]
  | sbb => simp only [commandResult, h0, h1, h2]
  | geq =>
    simp only [reduceCtorEq, false_or] at h3 hy
    rw [Limbs.ext_limbs h0 h1 h2 h3, hy]
    rfl
  | red =>
    simp only [reduceCtorEq, false_or] at hp h3
    rw [Limbs.ext_limbs h0 h1 h2 h3]
    exact redResult_congr hp x'

/-- Settles O24: the two results are one (`commandResult_congr`). -/
theorem resultDependsOnOperandsOnly : Obligations.ResultDependsOnOperandsOnly := by
  intro i s s' hp hinv h0 h1 h2 h3 hy
  have h := commandResult_congr i hp hinv h0 h1 h2 h3 hy
  exact ⟨_, _, exec_eq i s, exec_eq i s', congrArg Prod.fst h, congrArg Prod.snd h⟩

/-! ### The layout of a result -/

theorem flagOfHigh_eq_true_iff (hi : Word) : flagOfHigh hi = true ↔ hi ≠ 0 := decide_eq_true_iff

theorem flagOfBorrow_eq_true_iff (borrowOut : Word) : flagOfBorrow borrowOut = true ↔ borrowOut = 1 :=
  decide_eq_true_iff

theorem wordOfBool_toNat (b : Bool) : (wordOfBool b).toNat = b.toNat := by
  cases b <;> rfl

theorem sbb_borrow_le_one (a b borrow : Word) : (sbb a b borrow).2.toNat ≤ 1 := by
  obtain h | h := sbb_borrow_zero_or_one a b borrow
  · rw [h]
    decide
  · rw [h]
    decide

/-- Settles O25: each of the five results is a layout of 30_encoding.md R84, with its flag of 10_state.md R28. -/
theorem resultLayoutAndFlag : Obligations.ResultLayoutAndFlag := by
  refine fun i s => ⟨_, exec_eq i s, ?_, ?_, ?_⟩
  · rintro (rfl | rfl | rfl)
    · exact ⟨rfl, rfl, flagOfHigh_eq_true_iff _⟩
    · exact ⟨rfl, rfl, flagOfHigh_eq_true_iff _⟩
    · exact ⟨rfl, rfl, flagOfHigh_eq_true_iff _⟩
  · rintro rfl
    exact ⟨rfl, rfl, sbb_borrow_le_one _ _ _, flagOfBorrow_eq_true_iff _⟩
  · rintro rfl
    exact ⟨rfl, rfl, rfl, wordOfBool_toNat _⟩

end Machine

end Sys2Proof

/-! ## Proofs: writes of the window (20_memory.md section 2, 10_state.md section 2, 60_exceptions.md sections 1 and 2)

A write at a register's offset is a write of that register (`hostAccess_write`); one of CMD has the three outcomes of
`commandWrite_cases`. -/

namespace Sys2Proof

/-- Bit `k` of a word as a quotient. -/
theorem getLsbD_eq_false_iff (v : Word) (k : Nat) : v.getLsbD k = false ↔ v.toNat / 2 ^ k % 2 = 0 := by
  rw [BitVec.getLsbD, Nat.testBit_eq_decide_div_mod_eq, decide_eq_false_iff_not]
  omega

namespace Machine

/-! ### The window -/

/-- An 8-byte write at a read-only or an undefined offset only answers with an error (20_memory.md R54). -/
theorem hostAccess_write_error (s : State) (v : Word) {off : Nat} (hlt : off < windowSize)
    (h : undefinedOffset off ∨ readOnlyOffset off) :
    hostAccess (.write (s.cfg.base + off) 8 v) s = raiseBusError s := by
  have hin : inWindow s.cfg (.write (s.cfg.base + off) 8 v) :=
    ⟨Nat.le_add_right _ _, Nat.add_lt_add_left hlt _⟩
  have hcond : busErrorCondition s.cfg (.write (s.cfg.base + off) 8 v) := by
    simp only [busErrorCondition, Nat.add_sub_cancel_left]
    exact .inr h
  obtain ⟨-, e⟩ | ⟨hno, -⟩ := hostAccess_busError_or hin
  · exact e
  · exact absurd hcond hno

theorem and_not_eq_ite (a b : Bool) : (a && !b) = if b then false else a := by
  cases b <;> simp

/-- Settles O27: the registers that take a write are X, Y, CMD and STATUS; the other offsets are read-only or undefined. -/
theorem windowWrites : Obligations.WindowWrites := by
  intro s v
  refine ⟨fun k => ⟨hostAccess_write (.x k) v s, hostAccess_write (.y k) v s⟩, hostAccess_write .cmd v s, ?_,
    fun off hlt _ hoff => hostAccess_write_error s v hlt ?_⟩
  · simp only [← and_not_eq_ite]
    exact hostAccess_write .status v s
  · simp only [undefinedOffset, readOnlyOffset]
    omega

/-- Settles O31: an access outside the window is not the block's. -/
theorem outsideWindowIsIgnored : Obligations.OutsideWindowIsIgnored := by
  intro s a hout
  simp only [hostAccess, windowOffset_of_not_inWindow hout]

/-! ### STATUS -/

/-- Bits 3 and 4 of STATUS (10_state.md R25). -/
theorem statusWord_error_bits (s : State) :
    (statusWord s).getLsbD 3 = s.ill ∧ (statusWord s).getLsbD 4 = s.drop := by
  have all : ∀ drop ill flag done busy : Bool,
      let w := BitVec.ofNat 64
        (drop.toNat * 2 ^ 4 + ill.toNat * 2 ^ 3 + flag.toNat * 2 ^ 2 + done.toNat * 2 ^ 1 + busy.toNat)
      w.getLsbD 3 = ill ∧ w.getLsbD 4 = drop := by decide
  exact all s.drop s.ill s.flag s.done s.busy

/-- Bits 5 and above of STATUS are 0 (10_state.md R25). -/
theorem statusWord_reserved_bits (s : State) {k : Nat} (hk : 5 ≤ k) : (statusWord s).getLsbD k = false := by
  have hdrop := s.drop.toNat_le
  have hill := s.ill.toNat_le
  have hflag := s.flag.toNat_le
  have hdone := s.done.toNat_le
  have hbusy := s.busy.toNat_le
  have hpow : 2 ^ 5 ≤ 2 ^ k := Nat.pow_le_pow_right (by decide) hk
  rw [statusWord, BitVec.getLsbD_ofNat, Nat.testBit_eq_false_of_lt (by omega), Bool.and_false]

theorem statusWord_getLsbD (s : State) (k : Nat) :
    (statusWord s).getLsbD k =
      if k = 0 then s.busy else if k = 1 then s.done else if k = 2 then s.flag else if k = 3 then s.ill
      else if k = 4 then s.drop else false := by
  obtain ⟨h0, h1, h2⟩ := statusWord_low_bits s
  obtain ⟨h3, h4⟩ := statusWord_error_bits s
  match k with
  | 0 => exact h0
  | 1 => exact h1
  | 2 => exact h2
  | 3 => exact h3
  | 4 => exact h4
  | k + 5 => exact statusWord_reserved_bits s (Nat.le_add_left 5 k)

/-- A bit that is cleared where bit `k` of the word written is 1 (10_state.md R25). -/
theorem and_not_getLsbD_iff (b : Bool) (v : Word) (k : Nat) :
    (b && !v.getLsbD k) = true ↔ b = true ∧ v.toNat / 2 ^ k % 2 = 0 := by
  rw [Bool.and_eq_true, Bool.not_eq_true', getLsbD_eq_false_iff]

/-- Settles O28: the five bits are the summands of the word, and a write clears three of them where it carries a 1. -/
theorem statusRegister : Obligations.StatusRegister :=
  ⟨statusWord_getLsbD, fun s v =>
    ⟨_, hostAccess_write .status v s, rfl, rfl, and_not_getLsbD_iff s.done v 1, and_not_getLsbD_iff s.ill v 3,
      and_not_getLsbD_iff s.drop v 4⟩⟩

/-! ### CMD -/

theorem hostAccess_write_cmd (v : Word) (s : State) :
    hostAccess (.write (s.cfg.base + 0x060) 8 v) s = { commandWrite v s with resp := .ok } :=
  hostAccess_write .cmd v s

/-- A write to CMD while busy is dropped, whatever the word is (60_exceptions.md R213). -/
theorem commandWrite_busy {s : State} (v : Word) (hb : s.busy = true) : commandWrite v s = raiseDropped s := by
  rw [commandWrite, if_pos hb]

/-- The command that a legal word written to CMD while idle starts (30_encoding.md R85). -/
theorem commandWrite_accept {v : Word} {i : Instr} {s : State} (hb : s.busy = false) (hd : decode v = .ok i)
    (hi : i.wf s.cfg = true) : commandWrite v s = accept i s := by
  simp [commandWrite, hb, hd, hi]

theorem decode_of_legal {c : Config} {v : Word} (h : legal c v = true) :
    ∃ i : Instr, decode v = .ok i ∧ i.wf c = true := by
  obtain ⟨i, rfl, hi⟩ := (legal_iff c v).mp h
  exact ⟨i, decode_encode i, hi⟩

/-- Settles O32: a write to CMD is dropped, illegal or accepted. -/
theorem commandWriteOutcomes : Obligations.CommandWriteOutcomes := by
  refine fun s v => ⟨fun hb => ?_, fun hb hill => ?_, fun hb hlegal => ?_⟩
  · rw [hostAccess_write_cmd, commandWrite_busy v hb]
    rfl
  · rw [hostAccess_write_cmd, commandWrite_illegal hb hill]
    rfl
  · obtain ⟨i, hd, hi⟩ := decode_of_legal hlegal
    refine ⟨i, hd, ?_⟩
    rw [hostAccess_write_cmd, commandWrite_accept hb hd hi, accept, opcode_of_decode hd]
    rfl

/-! ### One condition for each access -/

/-- ILL is raised by nothing but an illegal word written to CMD while idle (60_exceptions.md R212). -/
theorem hostAccess_raises_ill {a : Access} {s : State} (h : s.ill = false) (h' : (hostAccess a s).ill = true) :
    s.busy = false ∧ ∃ v : Word, a = .write (s.cfg.base + 0x060) 8 v ∧ legal s.cfg v = false := by
  obtain ⟨r, e⟩ | ⟨k, v, -, e⟩ | ⟨k, v, -, e⟩ | ⟨v, -, e⟩ | ⟨v, ha, e⟩ := hostAccess_cases a s
  · simp [e, h] at h'
  · simp [e, h] at h'
  · simp [e, h] at h'
  · simp [e, h] at h'
  · obtain ⟨-, e'⟩ | ⟨hb, hill, -⟩ | ⟨-, i, -, -, e'⟩ := commandWrite_cases v s
    · simp [e, e', h] at h'
    · exact ⟨hb, v, ha, hill⟩
    · simp [e, e', h] at h'

/-- DROP is raised by nothing but a write to CMD while busy (60_exceptions.md R213). -/
theorem hostAccess_raises_drop {a : Access} {s : State} (h : s.drop = false) (h' : (hostAccess a s).drop = true) :
    s.busy = true ∧ ∃ v : Word, a = .write (s.cfg.base + 0x060) 8 v := by
  obtain ⟨r, e⟩ | ⟨k, v, -, e⟩ | ⟨k, v, -, e⟩ | ⟨v, -, e⟩ | ⟨v, ha, e⟩ := hostAccess_cases a s
  · simp [e, h] at h'
  · simp [e, h] at h'
  · simp [e, h] at h'
  · simp [e, h] at h'
  · obtain ⟨hb, -⟩ | ⟨-, -, e'⟩ | ⟨-, i, -, -, e'⟩ := commandWrite_cases v s
    · exact ⟨hb, v, ha⟩
    · simp [e, e', h] at h'
    · simp [e, e', h] at h'

/-- Settles O52: an access answered with an error changes only the response, and a write to CMD has one outcome. -/
theorem oneConditionPerAccess : Obligations.OneConditionPerAccess := by
  intro s a hin
  have hbus := hostAccess_busError_or hin
  refine ⟨⟨_, rfl, by rw [resetEdge_inWindow hin], rfl, rfl⟩, fun herr => ?_, fun hcond => ?_, ?_, ?_,
    hostAccess_raises_ill, hostAccess_raises_drop⟩
  · obtain ⟨-, e⟩ | ⟨-, hne⟩ := hbus
    · rw [e]
      exact ⟨rfl, rfl⟩
    · exact absurd herr hne
  · obtain ⟨-, e⟩ | ⟨hno, -⟩ := hbus
    · rw [e]
      rfl
    · exact absurd hcond hno
  · rintro v rfl hb
    rw [hostAccess_write_cmd, commandWrite_busy v hb]
    exact ⟨rfl, rfl, Response.noConfusion⟩
  · rintro v rfl hb hill
    rw [hostAccess_write_cmd, commandWrite_illegal hb hill]
    exact ⟨rfl, rfl, Response.noConfusion⟩

end Machine

end Sys2Proof

/-! ## Proofs: what a step changes (10_state.md sections 2, 3 and 5, 60_exceptions.md section 3)

A step is a reset, or the engine's part and then the host's (`step_cases`). The engine writes Z, FLAG, BUSY, DONE and CNT only
(`engineEdge_frame`); what the host's part can do to each further register is said once. -/

namespace Sys2Proof

namespace Machine

/-! ### The two parts of an edge -/

/-- The engine writes no register but Z, FLAG, BUSY, DONE and CNT (30_encoding.md R86). -/
theorem engineEdge_frame {s t : State} (h : engineEdge s = .next t) :
    ∃ z flag busy done cnt, t = { s with z := z, flag := flag, busy := busy, done := done, cnt := cnt } := by
  obtain ⟨-, rfl⟩ | ⟨-, n, -, rfl⟩ | ⟨-, -, i, -, rfl⟩ := engineEdge_cases h
  · exact ⟨_, _, _, _, _, rfl⟩
  · exact ⟨_, _, _, _, _, rfl⟩
  · exact ⟨_, _, _, _, _, rfl⟩

/-- The engine is idle after its part of an edge only where it was idle or in its last cycle (30_encoding.md R86). -/
theorem engineEdge_idle_after {s t : State} (h : engineEdge s = .next t) (hb : t.busy = false) :
    s.busy = false ∨ s.cnt = 1 := by
  obtain ⟨hidle, -⟩ | ⟨hbusy, n, -, rfl⟩ | ⟨-, hc, -⟩ := engineEdge_cases h
  · exact .inl hidle
  · simp [hbusy] at hb
  · exact .inr hc

/-- A write to CMD leaves X and Y, and clears neither ILL nor DROP (30_encoding.md R85). -/
theorem commandWrite_keeps (v : Word) (s : State) :
    (commandWrite v s).x = s.x ∧ (commandWrite v s).y = s.y ∧
      (s.ill = true → (commandWrite v s).ill = true) ∧ (s.drop = true → (commandWrite v s).drop = true) := by
  obtain ⟨-, e⟩ | ⟨-, -, e⟩ | ⟨-, i, -, -, e⟩ := commandWrite_cases v s <;> simp [e]

/-- X changes only by a write to one of its limbs (10_state.md R21). -/
theorem hostPart_x (acc : Option Access) (s : State) :
    (hostPart acc s).x = s.x ∨
      ∃ k v, acc = some (.write (s.cfg.base + regOffset (.x k)) 8 v) ∧ (hostPart acc s).x = s.x.set k v := by
  cases acc with
  | none => exact .inl rfl
  | some a =>
    simp only [hostPart]
    obtain ⟨r, e⟩ | ⟨k, v, ha, e⟩ | ⟨k, v, -, e⟩ | ⟨v, -, e⟩ | ⟨v, -, e⟩ := hostAccess_cases a s
    · exact .inl (by rw [e])
    · exact .inr ⟨k, v, congrArg some ha, by rw [e]⟩
    · exact .inl (by rw [e])
    · exact .inl (by simp [e])
    · exact .inl (by simp [e, (commandWrite_keeps v s).1])

/-- Y changes only by a write to one of its limbs (10_state.md R22). -/
theorem hostPart_y (acc : Option Access) (s : State) :
    (hostPart acc s).y = s.y ∨
      ∃ k v, acc = some (.write (s.cfg.base + regOffset (.y k)) 8 v) ∧ (hostPart acc s).y = s.y.set k v := by
  cases acc with
  | none => exact .inl rfl
  | some a =>
    simp only [hostPart]
    obtain ⟨r, e⟩ | ⟨k, v, -, e⟩ | ⟨k, v, ha, e⟩ | ⟨v, -, e⟩ | ⟨v, -, e⟩ := hostAccess_cases a s
    · exact .inl (by rw [e])
    · exact .inl (by rw [e])
    · exact .inr ⟨k, v, congrArg some ha, by rw [e]⟩
    · exact .inl (by simp [e])
    · exact .inl (by simp [e, (commandWrite_keeps v s).2.1])

theorem and_not_or_of_true {b : Bool} (h : b = true) (c : Bool) : (b && !c) = true ∨ c = true := by
  cases c with
  | false => exact .inl (by rw [h]; rfl)
  | true => exact .inr rfl

/-- ILL and DROP are cleared only by a write to STATUS with their bit set (60_exceptions.md R217). -/
theorem hostPart_error_bits (acc : Option Access) (s : State) :
    (s.ill = true → (hostPart acc s).ill = true ∨
      ∃ v, acc = some (.write (s.cfg.base + regOffset .status) 8 v) ∧ v.getLsbD 3 = true) ∧
    (s.drop = true → (hostPart acc s).drop = true ∨
      ∃ v, acc = some (.write (s.cfg.base + regOffset .status) 8 v) ∧ v.getLsbD 4 = true) := by
  cases acc with
  | none => exact ⟨.inl, .inl⟩
  | some a =>
    simp only [hostPart]
    obtain ⟨r, e⟩ | ⟨k, v, -, e⟩ | ⟨k, v, -, e⟩ | ⟨v, ha, e⟩ | ⟨v, -, e⟩ := hostAccess_cases a s
    · rw [e]
      exact ⟨.inl, .inl⟩
    · rw [e]
      exact ⟨.inl, .inl⟩
    · rw [e]
      exact ⟨.inl, .inl⟩
    · rw [e]
      exact ⟨fun h => (and_not_or_of_true h _).imp_right fun hv => ⟨v, congrArg some ha, hv⟩,
        fun h => (and_not_or_of_true h _).imp_right fun hv => ⟨v, congrArg some ha, hv⟩⟩
    · obtain ⟨-, -, hill, hdrop⟩ := commandWrite_keeps v s
      rw [e]
      exact ⟨fun h => .inl (hill h), fun h => .inl (hdrop h)⟩

/-- The latches change only where an idle block accepts a legal word written to CMD (10_state.md R31). -/
theorem hostPart_latches (acc : Option Access) (s : State) :
    ((hostPart acc s).xl = s.xl ∧ (hostPart acc s).yl = s.yl ∧ (hostPart acc s).opl = s.opl) ∨
      ∃ v i, acc = some (.write (s.cfg.base + regOffset .cmd) 8 v) ∧ s.busy = false ∧ decode v = .ok i ∧
        i.wf s.cfg = true ∧ hostPart acc s = { accept i s with resp := .ok } := by
  cases acc with
  | none => exact .inl ⟨rfl, rfl, rfl⟩
  | some a =>
    simp only [hostPart]
    obtain ⟨r, e⟩ | ⟨k, v, -, e⟩ | ⟨k, v, -, e⟩ | ⟨v, -, e⟩ | ⟨v, ha, e⟩ := hostAccess_cases a s
    · exact .inl (by rw [e]; exact ⟨rfl, rfl, rfl⟩)
    · exact .inl (by rw [e]; exact ⟨rfl, rfl, rfl⟩)
    · exact .inl (by rw [e]; exact ⟨rfl, rfl, rfl⟩)
    · exact .inl (by rw [e]; exact ⟨rfl, rfl, rfl⟩)
    · rw [e]
      obtain ⟨-, e'⟩ | ⟨-, -, e'⟩ | ⟨hb, i, hd, hi, e'⟩ := commandWrite_cases v s
      · exact .inl (by rw [e']; exact ⟨rfl, rfl, rfl⟩)
      · exact .inl (by rw [e']; exact ⟨rfl, rfl, rfl⟩)
      · exact .inr ⟨v, i, congrArg some ha, hb, hd, hi, by rw [e']⟩

/-! ### The obligations -/

/-- Settles O42: the registers of the constant bank read the configuration, which a step keeps. -/
theorem constantsNeverChange : Obligations.ConstantsNeverChange := by
  intro s t h
  have hcfg := step_keeps_cfg h
  have hread (r : Reg) (f : Config → Word) (hr : ∀ s, readReg r s = f s.cfg) : readReg r t = readReg r s := by
    rw [hr, hr, hcfg]
  refine ⟨hcfg, hread .caps (fun c => wordOfBool c.edmOk) fun _ => rfl, hread .inv (·.inv) fun _ => rfl, fun k => ?_⟩
  exact ⟨hread (.p k) (·.p.get k) fun _ => rfl, hread (.r1 k) (·.r1.get k) fun _ => rfl,
    hread (.r2 k) (·.r2.get k) fun _ => rfl, hread (.r3 k) (·.r3.get k) fun _ => rfl⟩

/-- Settles O46: only the completing case of the engine's part writes Z and FLAG. -/
theorem resultChangesOnlyAtCompletion : Obligations.ResultChangesOnlyAtCompletion := by
  intro s t h
  obtain ⟨-, ⟨hr, rfl⟩ | ⟨hr, u, hu, rfl⟩⟩ := step_cases h
  · exact .inr (.inl ⟨hr, rfl, rfl⟩)
  · obtain ⟨-, hz, hflag, -⟩ := hostPart_keeps (nextEdge s).access u
    rw [hz, hflag]
    obtain ⟨-, rfl⟩ | ⟨-, n, -, rfl⟩ | ⟨hb, hc, i, ho, rfl⟩ := engineEdge_cases hu
    · exact .inl ⟨rfl, rfl⟩
    · exact .inl ⟨rfl, rfl⟩
    · exact .inr (.inr ⟨hr, hb, hc, i, ho, rfl⟩)

/-- Settles O49: the engine's part leaves X and Y, and the host's part writes one limb. -/
theorem operandsChangeOnlyByHostWrite : Obligations.OperandsChangeOnlyByHostWrite := by
  intro s t h
  obtain ⟨-, ⟨hr, rfl⟩ | ⟨-, u, hu, rfl⟩⟩ := step_cases h
  · exact ⟨.inr (.inl ⟨hr, rfl⟩), .inr (.inl ⟨hr, rfl⟩)⟩
  · obtain ⟨z, flag, busy, done, cnt, rfl⟩ := engineEdge_frame hu
    exact ⟨(hostPart_x _ _).imp_right .inr, (hostPart_y _ _).imp_right .inr⟩

/-- Settles O50: a word is accepted by the host's part where the engine's part left the block idle. -/
theorem latchesChangeOnlyAtAcceptance : Obligations.LatchesChangeOnlyAtAcceptance := by
  intro s t h
  obtain ⟨-, ⟨hr, rfl⟩ | ⟨-, u, hu, rfl⟩⟩ := step_cases h
  · exact .inr (.inl ⟨hr, rfl, rfl, rfl⟩)
  · have hidle := engineEdge_idle_after hu
    obtain ⟨z, flag, busy, done, cnt, rfl⟩ := engineEdge_frame hu
    obtain hkeep | ⟨v, i, hacc, hb, hd, hi, e⟩ := hostPart_latches (nextEdge s).access _
    · exact .inl hkeep
    · refine .inr (.inr ⟨v, hacc, ?_, hidle hb, ?_⟩)
      · rw [legal_of_decode s.cfg hd]
        exact hi
      · rw [e]
        exact ⟨rfl, rfl, opcode_of_decode hd, rfl⟩

/-- Settles O51: the engine's part leaves ILL and DROP, and the host's part clears them in a write to STATUS alone. -/
theorem errorBitsAreSticky : Obligations.ErrorBitsAreSticky := by
  intro s t h
  obtain ⟨-, ⟨hr, -⟩ | ⟨-, u, hu, rfl⟩⟩ := step_cases h
  · exact ⟨fun _ => .inr (.inl hr), fun _ => .inr (.inl hr)⟩
  · obtain ⟨hill, hdrop⟩ := hostPart_error_bits (nextEdge s).access u
    obtain ⟨z, flag, busy, done, cnt, rfl⟩ := engineEdge_frame hu
    exact ⟨fun hs => (hill hs).imp_right .inr, fun hs => (hdrop hs).imp_right .inr⟩

/-- Settles O41: a configuration with a latency of 0 or a misaligned BASE is not well formed. -/
theorem illegalOpenParametersRefused : Obligations.IllegalOpenParametersRefused := by
  intro s hbad
  rw [step_refused_iff, Config.wf_iff]
  rintro ⟨-, hlat, hbase⟩
  obtain ⟨i, hi⟩ | hbase' := hbad
  · have := hlat i
    omega
  · exact hbase' hbase

end Machine

end Sys2Proof

/-! ## Proofs: a command from its write to its completion (30_encoding.md section 3, 70_reset_and_hazards.md section 4)

`InFlight` is what stays the same from the acceptance of a command until its completion, whatever the host does at the edges
between (`InFlight.hostPart`). An edge before the last one counts down (`InFlight.step_counts`), the last one completes
(`InFlight.step_completes`), and a run is as many of the former as there are accesses, and then the latter. -/

namespace Sys2Proof

namespace Machine

/-! ### One edge -/

/-- An edge without reset while idle (30_encoding.md R86). -/
theorem step_at_idle {s : State} {acc : Option Access} {rest : List Edge} (hw : s.cfg.wf = true)
    (hb : s.busy = false) (hin : s.inputs = { rst := false, access := acc } :: rest) :
    step s = .next (hostPart acc { s with inputs := rest }) := by
  have hedge := nextEdge_of_inputs hin
  rw [step_of_engine hw (by rw [hedge]) (engineEdge_idle hb), hedge, takeEdge_of_inputs hin]

/-- An edge without reset before the last one of a command (30_encoding.md R86). -/
theorem step_at_count {s : State} {n : Nat} {acc : Option Access} {rest : List Edge} (hw : s.cfg.wf = true)
    (hb : s.busy = true) (hc : s.cnt = n + 2) (hin : s.inputs = { rst := false, access := acc } :: rest) :
    step s = .next (hostPart acc { s with cnt := n + 1, inputs := rest }) := by
  have hedge := nextEdge_of_inputs hin
  rw [step_of_engine hw (by rw [hedge]) (engineEdge_count (s := takeEdge s) hb hc), hedge, takeEdge_of_inputs hin]

/-- Settles O35: without a completion the engine does nothing while idle and counts down while busy. -/
theorem engineCountsDown : Obligations.EngineCountsDown := fun _ _ _ hw hin =>
  ⟨fun hb => step_at_idle hw hb hin, fun _ hb hc => step_at_count hw hb hc hin⟩

theorem opcode_of_decode_setWidth {op : BitVec 4} {i : Instr} (h : decode (op.setWidth 64) = .ok i) :
    op = i.opcode := by
  have hword := congrArg BitVec.toNat (decode_eq_ok_iff.mp h)
  rw [encode_toNat, BitVec.toNat_setWidth_of_le (by decide)] at hword
  exact BitVec.eq_of_toNat_eq hword

/-- Settles O33: the last edge of a command is its completion and then the host's part. -/
theorem stepRunsDecodedCommand : Obligations.StepRunsDecodedCommand := by
  intro s t i acc rest hw hin hb hc hd hexec
  rw [step_at_completion hw hb hc (opcode_of_decode_setWidth hd) hin]
  rw [exec_eq] at hexec
  rw [← Host.Outcome.next.inj hexec]
  rfl

theorem tableWord_toNat (v : Word) : tableWord 64 v.toNat = some v := by
  have hmod : v.toNat % 2 ^ 64 = v.toNat := Nat.mod_eq_of_lt v.isLt
  rw [tableWord, hmod, if_pos v.isLt, BitVec.ofNat_toNat, BitVec.setWidth_eq]

/-- The model's entry for a command that the instance has: latched, with one cycle left (log 8). -/
theorem withFetchWord_encode {s : State} {i : Instr} (hi : i.wf s.cfg = true) :
    s.withFetchWord 64 (encode i).toNat = { accept i s with cnt := 1, inputs := idleEdge :: s.inputs } := by
  simp only [State.withFetchWord, tableWord_toNat, placeCommand, decode_encode, hi, if_true]

/-- Settles O34: the placed command is in its last cycle, at an edge that presents nothing. -/
theorem placedCommandRuns : Obligations.PlacedCommandRuns := by
  intro s i hw hi
  refine ⟨_, ?_, exec_eq i _⟩
  rw [withFetchWord_encode hi]
  exact step_at_completion (s := { accept i s with cnt := 1, inputs := idleEdge :: s.inputs }) hw rfl rfl rfl rfl

/-! ### A command in flight -/

/-- The command `i`, accepted in the state `s₀`, is in flight in `s`: the latches hold its operands, and the result
registers are as they were. -/
structure InFlight (i : Instr) (s₀ s : State) : Prop where
  cfg  : s.cfg = s₀.cfg
  busy : s.busy = true
  done : s.done = false
  opl  : s.opl = i.opcode
  xl   : s.xl = s₀.x
  yl   : s.yl = s₀.y
  z    : s.z = s₀.z
  flag : s.flag = s₀.flag

/-- While a command is in flight no access reaches it: none changes the engine's registers (30_encoding.md R85, R86). -/
theorem InFlight.hostAccess {i : Instr} {s₀ s : State} (h : InFlight i s₀ s) (a : Access) :
    InFlight i s₀ (hostAccess a s) ∧ (hostAccess a s).cnt = s.cnt ∧ (hostAccess a s).inputs = s.inputs := by
  obtain ⟨hcfg, hbusy, hdone, hopl, hxl, hyl, hz, hflag⟩ := h
  obtain ⟨r, e⟩ | ⟨k, v, -, e⟩ | ⟨k, v, -, e⟩ | ⟨v, -, e⟩ | ⟨v, -, e⟩ := hostAccess_cases a s
  · rw [e]
    exact ⟨⟨hcfg, hbusy, hdone, hopl, hxl, hyl, hz, hflag⟩, rfl, rfl⟩
  · rw [e]
    exact ⟨⟨hcfg, hbusy, hdone, hopl, hxl, hyl, hz, hflag⟩, rfl, rfl⟩
  · rw [e]
    exact ⟨⟨hcfg, hbusy, hdone, hopl, hxl, hyl, hz, hflag⟩, rfl, rfl⟩
  · rw [e]
    exact ⟨⟨hcfg, hbusy, by simp [hdone], hopl, hxl, hyl, hz, hflag⟩, rfl, rfl⟩
  · rw [e, commandWrite_busy v hbusy]
    exact ⟨⟨hcfg, hbusy, hdone, hopl, hxl, hyl, hz, hflag⟩, rfl, rfl⟩

theorem InFlight.hostPart {i : Instr} {s₀ s : State} (h : InFlight i s₀ s) (acc : Option Access) :
    InFlight i s₀ (hostPart acc s) ∧ (hostPart acc s).cnt = s.cnt ∧ (hostPart acc s).inputs = s.inputs := by
  cases acc with
  | none =>
    obtain ⟨hcfg, hbusy, hdone, hopl, hxl, hyl, hz, hflag⟩ := h
    exact ⟨⟨hcfg, hbusy, hdone, hopl, hxl, hyl, hz, hflag⟩, rfl, rfl⟩
  | some a => exact h.hostAccess a

/-- An edge before the last one leaves the command in flight, with one cycle less. -/
theorem InFlight.step_counts {i : Instr} {s₀ s : State} {n : Nat} {acc : Option Access} {rest : List Edge}
    (h : InFlight i s₀ s) (hw : s₀.cfg.wf = true) (hc : s.cnt = n + 2)
    (hin : s.inputs = { rst := false, access := acc } :: rest) :
    ∃ t : State, step s = .next t ∧ InFlight i s₀ t ∧ t.cnt = n + 1 ∧ t.inputs = rest := by
  have hstep := step_at_count (h.cfg ▸ hw) h.busy hc hin
  obtain ⟨hcfg, hbusy, hdone, hopl, hxl, hyl, hz, hflag⟩ := h
  have hcounted : InFlight i s₀ { s with cnt := n + 1, inputs := rest } :=
    ⟨hcfg, hbusy, hdone, hopl, hxl, hyl, hz, hflag⟩
  obtain ⟨hfly, hcnt, hinputs⟩ := hcounted.hostPart acc
  exact ⟨_, hstep, hfly, hcnt, hinputs⟩

/-- The last edge writes the result on the operands of the acceptance; the access of that edge may change the engine. -/
theorem InFlight.step_completes {i : Instr} {s₀ s : State} {acc : Option Access} {rest : List Edge}
    (h : InFlight i s₀ s) (hw : s₀.cfg.wf = true) (hc : s.cnt = 1)
    (hin : s.inputs = { rst := false, access := acc } :: rest) :
    ∃ t : State, step s = .next t ∧ (t.z, t.flag) = commandResult s₀.cfg i s₀.x s₀.y ∧
      (acc = none → t.busy = false ∧ t.done = true ∧ t.cnt = 0) := by
  refine ⟨_, step_at_completion (h.cfg ▸ hw) h.busy hc h.opl hin, ?_, ?_⟩
  · obtain ⟨-, hz, hflag, -⟩ := hostPart_keeps acc (afterCompletion i rest s)
    rw [hz, hflag, ← h.cfg, ← h.xl, ← h.yl]
    rfl
  · rintro rfl
    exact ⟨rfl, rfl, rfl⟩

/-! ### A run -/

theorem run_succ {s t : State} (h : step s = .next t) (k : Nat) :
    Host.Core.run Sys2Proof.core (k + 1) s = Host.Core.run Sys2Proof.core k t := by
  have hstep : Sys2Proof.core.step s = .next t := h
  simp only [Host.Core.run, hstep]

/-- Edges without reset, one for each access. -/
def accessEdges (accs : List (Option Access)) : List Edge := accs.map (fun a => { rst := false, access := a })

/-- Fewer edges than cycles are left keep the command in flight. -/
theorem InFlight.run_counts {i : Instr} {s₀ s : State} {accs : List (Option Access)} {rest : List Edge} {n : Nat}
    (h : InFlight i s₀ s) (hw : s₀.cfg.wf = true) (hc : s.cnt = accs.length)
    (hin : s.inputs = accessEdges accs ++ rest) (hn : n < accs.length) :
    ∃ t : State, Host.Core.run Sys2Proof.core n s = .next t ∧ InFlight i s₀ t ∧ t.cnt + n = accs.length := by
  induction n generalizing s accs with
  | zero => exact ⟨s, rfl, h, hc⟩
  | succ n ih =>
    match accs, hn with
    | acc :: acc' :: accs, hn =>
      obtain ⟨t, hstep, hfly, hcnt, hinputs⟩ := h.step_counts hw hc hin
      obtain ⟨u, hrun, hu, hleft⟩ := ih (accs := acc' :: accs) hfly hcnt hinputs (Nat.lt_of_succ_lt_succ hn)
      exact ⟨u, (run_succ hstep n).trans hrun, hu, congrArg (· + 1) hleft⟩

/-- As many edges as cycles are left complete the command. -/
theorem InFlight.run_completes {i : Instr} {s₀ s : State} {accs : List (Option Access)} {rest : List Edge}
    (h : InFlight i s₀ s) (hw : s₀.cfg.wf = true) (hc : s.cnt = accs.length) (hne : accs ≠ [])
    (hin : s.inputs = accessEdges accs ++ rest) :
    ∃ t : State, Host.Core.run Sys2Proof.core accs.length s = .next t ∧
      (t.z, t.flag) = commandResult s₀.cfg i s₀.x s₀.y ∧
      (accs.getLast? = some none → t.busy = false ∧ t.done = true ∧ t.cnt = 0) := by
  induction accs generalizing s with
  | nil => exact absurd rfl hne
  | cons acc accs ih =>
    cases accs with
    | nil =>
      obtain ⟨t, hstep, hresult, hlast⟩ := h.step_completes hw hc hin
      exact ⟨t, run_succ hstep 0, hresult, fun hl => hlast (Option.some.inj hl)⟩
    | cons acc' accs =>
      obtain ⟨t, hstep, hfly, hcnt, hinputs⟩ := h.step_counts hw hc hin
      obtain ⟨u, hrun, hu⟩ := ih hfly hcnt (List.cons_ne_nil _ _) hinputs
      exact ⟨u, (run_succ hstep _).trans hrun, hu⟩

/-- The edge that presents a legal word to an idle block accepts its command (30_encoding.md R85). -/
theorem step_accepts {s : State} {i : Instr} {rest : List Edge} (hw : s.cfg.wf = true) (hi : i.wf s.cfg = true)
    (hb : s.busy = false) (hin : s.inputs = cmdWriteEdge s.cfg (encode i) :: rest) :
    ∃ t : State, step s = .next t ∧ InFlight i s t ∧ t.cnt = s.cfg.latOf i ∧ t.inputs = rest := by
  have hacc : hostPart (some (.write (s.cfg.base + regOffset .cmd) 8 (encode i))) { s with inputs := rest } =
      { accept i { s with inputs := rest } with resp := .ok } := by
    rw [← commandWrite_accept (v := encode i) (s := { s with inputs := rest }) hb (decode_encode i) hi]
    exact hostAccess_write_cmd (encode i) { s with inputs := rest }
  exact ⟨_, (step_at_idle hw hb hin).trans (congrArg _ hacc), ⟨rfl, rfl, rfl, rfl, rfl, rfl, rfl, rfl⟩, rfl, rfl⟩

/-- Settles O36: the acceptance puts the command in flight with `LAT` cycles left, and there are as many accesses. -/
theorem completesExactlyLatEdgesLater : Obligations.CompletesExactlyLatEdgesLater := by
  intro s i accs rest hw hi hb hlen hin
  obtain ⟨t, hstep, hfly, hcnt, hinputs⟩ := step_accepts hw hi hb hin
  rw [← hlen] at hcnt ⊢
  refine ⟨fun n hn => ?_, ?_⟩
  · obtain ⟨u, hrun, hu, hleft⟩ := hfly.run_counts hw hcnt hinputs hn
    exact ⟨u, (run_succ hstep n).trans hrun, hu.busy, hu.done, hu.z, hu.flag, hleft⟩
  · have hne : accs ≠ [] := by
      obtain ⟨-, hlat, -⟩ := s.cfg.wf_iff.mp hw
      exact List.ne_nil_of_length_pos (hlen ▸ hlat i)
    obtain ⟨u, hrun, hresult, hlast⟩ := hfly.run_completes hw hcnt hne hinputs
    exact ⟨u, (run_succ hstep _).trans hrun, congrArg Prod.fst hresult, congrArg Prod.snd hresult, hlast⟩

end Machine

end Sys2Proof

/-! ## Proofs: the untimed reading (20_memory.md R58, 30_encoding.md R86)

CNT, the inputs and the response decide nothing about what an access does to the other registers (`forgetTime_hostAccess`), so
each part of an edge is an event on the state without them. -/

namespace Sys2Proof

namespace Machine

/-- Forgetting time before an operation changes nothing of what is left when time is forgotten after it. -/
def Untimed (f : State → State) : Prop := ∀ s : State, forgetTime (f (forgetTime s)) = forgetTime (f s)

theorem untimed_commandWrite (v : Word) : Untimed (commandWrite v) := by
  intro s
  obtain ⟨hb, e⟩ | ⟨hb, hill, e⟩ | ⟨hb, i, hd, hi, e⟩ := commandWrite_cases v s
  · rw [e, commandWrite_busy v (s := forgetTime s) hb]
    rfl
  · rw [e, commandWrite_illegal (s := forgetTime s) hb hill]
    rfl
  · rw [e, commandWrite_accept (s := forgetTime s) hb hd hi]
    rfl

theorem untimed_hostWrite (r : Reg) (v : Word) : Untimed (hostWrite r v) := by
  intro s
  cases r with
  | cmd => exact congrArg (fun t => { t with resp := .none }) (untimed_commandWrite v s)
  | x k | y k | status | z k | caps | p k | inv | r1 k | r2 k | r3 k => rfl

theorem untimed_performAt (a : Access) (r : Reg) : Untimed (performAt a r) := by
  cases a with
  | read addr width => exact fun _ => rfl
  | write addr width v => exact untimed_hostWrite r v

/-- Where an access goes is settled by the instance (`hostAccess_route`), which time does not change. -/
theorem forgetTime_hostAccess (a : Access) (s : State) :
    forgetTime (hostAccess a (forgetTime s)) = forgetTime (hostAccess a s) := by
  obtain e | e | ⟨-, r, e⟩ := hostAccess_route s.cfg a
  · rw [e s rfl, e (forgetTime s) rfl]
    rfl
  · rw [e s rfl, e (forgetTime s) rfl]
    rfl
  · rw [e s rfl, e (forgetTime s) rfl]
    exact untimed_performAt a r s

/-! ### The parts of an edge as events -/

theorem applyEvent_reset (acc : Option Access) (s : State) :
    applyEvent .reset (forgetTime s) = some (forgetTime (resetEdge acc (takeEdge s))) := rfl

/-- The host's part of an edge is its access, if it has one. -/
theorem applyEvents_hostPart (acc : Option Access) (s : State) :
    applyEvents (acc.toList.map .access) (forgetTime s) = some (forgetTime (hostPart acc s)) := by
  cases acc with
  | none => rfl
  | some a => exact congrArg some (forgetTime_hostAccess a s)

/-- A completion takes its operands from the latches, which time does not change (30_encoding.md R86). -/
theorem applyEvent_complete {s : State} {i : Instr} (hb : s.busy = true) (ho : s.opl = i.opcode) :
    applyEvent .complete (forgetTime s) =
      some (forgetTime (complete (commandResult s.cfg i s.xl s.yl) { s with cnt := 0 })) := by
  have hbusy : (forgetTime s).busy = true := hb
  have hdecode : decodeOp (forgetTime s).opl = .ok i := by rw [forgetTime_opl, ho, decodeOp_opcode]
  rw [applyEvent, if_pos hbusy, hdecode]
  simp only [exec_eq]
  rfl

/-- The engine's part of an edge is a completion of the command in flight, or nothing that time does not hide. -/
theorem engineEdge_event {s u : State} (h : engineEdge s = .next u) :
    forgetTime u = forgetTime s ∨ (s.busy = true ∧ applyEvent .complete (forgetTime s) = some (forgetTime u)) := by
  obtain ⟨-, rfl⟩ | ⟨-, n, -, rfl⟩ | ⟨hb, -, i, ho, rfl⟩ := engineEdge_cases h
  · exact .inl rfl
  · exact .inl rfl
  · exact .inr ⟨hb, applyEvent_complete hb ho⟩

theorem applyEvents_cons {e : Event} {s t : State} (h : applyEvent e s = some t) (es : List Event) :
    applyEvents (e :: es) s = applyEvents es t := by
  rw [applyEvents, h]

/-- Settles O53: a step is the reset event, or the engine's event, if any, and then the host's. -/
theorem stepRefinesUntimedEvents : Obligations.StepRefinesUntimedEvents := by
  intro s t _ h
  obtain ⟨-, ⟨hr, rfl⟩ | ⟨hr, u, hu, rfl⟩⟩ := step_cases h
  · exact ⟨[.reset], applyEvents_cons (applyEvent_reset (nextEdge s).access s) [], .inl ⟨hr, rfl⟩⟩
  · have hhost := applyEvents_hostPart (nextEdge s).access u
    obtain hsame | ⟨hb, hcomplete⟩ := engineEdge_event hu
    · rw [hsame] at hhost
      exact ⟨_, hhost, .inr ⟨hr, [], .inl rfl, rfl⟩⟩
    · exact ⟨.complete :: _, (applyEvents_cons hcomplete _).trans hhost, .inr ⟨hr, [.complete], .inr ⟨rfl, hb⟩, rfl⟩⟩

end Machine

end Sys2Proof
